-- ==== Sys2Proof/Word.lean ====
section
/-! DEFINITION. The widths the block works with (spec/00_scope.md R7). -/

namespace Sys2Proof

/-- A word of a frame: 16 bits (R7 `WORDW`). -/
abbrev Word := BitVec 16

/-- A byte of the frame buffer, a checksum, a command byte, a register number: 8 bits
(R7 `CRCW`, R29, R32, R60). -/
abbrev Byte := BitVec 8

/-- The word-register field `r` of a format-R command: two bits (R62). -/
abbrev WordIdx := BitVec 2

end Sys2Proof
end

