-- ==== Sys2Proof/Syntax.lean ====
section
/-! DEFINITION. The eleven commands of the block (spec/30_encoding.md R64), one constructor for each row of
spec/opcode_table.json. -/

namespace Sys2Proof

/-- One command. Format-R commands carry the two bits of their word-register field (R62). -/
inductive Instr where
  /-- `NOP` (R140). -/
  | nop
  /-- `CRC.CALC r` (R88). -/
  | crcCalc (r : WordIdx)
  /-- `CRC.VRFY r` (R89). -/
  | crcVrfy (r : WordIdx)
  /-- `FRM.ENC` (R103). -/
  | frmEnc
  /-- `FRM.DEC` (R104). -/
  | frmDec
  /-- `CNV.CO2 r` (R127). -/
  | cnvCo2 (r : WordIdx)
  /-- `CNV.TMP r` (R128). -/
  | cnvTmp (r : WordIdx)
  /-- `CNV.HUM r` (R129). -/
  | cnvHum (r : WordIdx)
  /-- `CNV.RDY r` (R132). -/
  | cnvRdy (r : WordIdx)
  /-- `CNV.ALL` (R133). -/
  | cnvAll
  /-- `CLR` (R141). -/
  | clr
deriving DecidableEq, Repr

end Sys2Proof
end

