-- ==== Sys2Proof/WellFormed.lean ====
section
/-! DEFINITION. Which terms of `Instr` are commands of the block (spec/30_encoding.md R61, R62). -/

namespace Sys2Proof

/-- A word-register field names a register when it is 0, 1 or 2 (R62; R12: "Index 3 does not name a register"). -/
def WordIdx.wellFormed (r : WordIdx) : Bool := r != 3

/-- The only check a command can fail is the one on its word-register field (R62). -/
def Instr.wellFormed : Instr → Bool
  | .nop => true
  | .crcCalc r => WordIdx.wellFormed r
  | .crcVrfy r => WordIdx.wellFormed r
  | .frmEnc => true
  | .frmDec => true
  | .cnvCo2 r => WordIdx.wellFormed r
  | .cnvTmp r => WordIdx.wellFormed r
  | .cnvHum r => WordIdx.wellFormed r
  | .cnvRdy r => WordIdx.wellFormed r
  | .cnvAll => true
  | .clr => true

end Sys2Proof
end

