-- ==== Sys2Proof/Decode.lean ====
section
/-! DEFINITION. The command byte: decoder, total on every byte, and encoder (spec/30_encoding.md R60 to R66). -/

namespace Sys2Proof

/-- Why a byte selects no command (R61, R62, R65). Each one makes the block raise `IllegalCommand` (R153). -/
inductive IllegalByte where
  /-- `OP` is `0xA` to `0xE` (R65). -/
  | unassignedOp
  /-- A format-N `OP` whose bits 3:0 are not zero (R61). -/
  | lowBitsNotZero
  /-- A format-R `OP` whose bits 3:2 are not zero (R62). -/
  | middleBitsNotZero
  /-- A format-R `OP` with `r` = 3 (R62). -/
  | noSuchWord
deriving DecidableEq, Repr

/-- Format N (R61): bits 3:0 must be zero. -/
def decodeN (low : BitVec 4) (i : Instr) : Except IllegalByte Instr :=
  if low = 0 then .ok i else .error .lowBitsNotZero

/-- Format R (R62): bits 3:2 must be zero and bits 1:0 must name a word register. -/
def decodeR (low : BitVec 4) (i : WordIdx → Instr) : Except IllegalByte Instr :=
  let r : WordIdx := low.extractLsb' 0 2
  if low.extractLsb' 2 2 ≠ 0 then .error .middleBitsNotZero
  else if r = 3 then .error .noSuchWord
  else .ok (i r)

/-- The decoder, the procedure P-R63: one arm for each value of `OP`, bits 7:4 of the byte. -/
def decode (c : Byte) : Except IllegalByte Instr :=
  let low : BitVec 4 := c.extractLsb' 0 4
  match (c.extractLsb' 4 4).toNat with
  | 0x0 => decodeN low .nop
  | 0x1 => decodeR low .crcCalc
  | 0x2 => decodeR low .crcVrfy
  | 0x3 => decodeN low .frmEnc
  | 0x4 => decodeN low .frmDec
  | 0x5 => decodeR low .cnvCo2
  | 0x6 => decodeR low .cnvTmp
  | 0x7 => decodeR low .cnvHum
  | 0x8 => decodeR low .cnvRdy
  | 0x9 => decodeN low .cnvAll
  | 0xF => decodeN low .clr
  | _ => .error .unassignedOp

/-- A format-N byte: `OP`, then four zero bits (R61). -/
def encodeN (op : BitVec 4) : Byte := op ++ (0 : BitVec 4)

/-- A format-R byte: `OP`, two zero bits, `r` (R62). -/
def encodeR (op : BitVec 4) (r : WordIdx) : Byte := op ++ ((0 : BitVec 2) ++ r : BitVec 4)

/-- The encoder, from the opcode map (R64). -/
def encode : Instr → Byte
  | .nop => encodeN 0x0
  | .crcCalc r => encodeR 0x1 r
  | .crcVrfy r => encodeR 0x2 r
  | .frmEnc => encodeN 0x3
  | .frmDec => encodeN 0x4
  | .cnvCo2 r => encodeR 0x5 r
  | .cnvTmp r => encodeR 0x6 r
  | .cnvHum r => encodeR 0x7 r
  | .cnvRdy r => encodeR 0x8 r
  | .cnvAll => encodeN 0x9
  | .clr => encodeN 0xF

/-- The decoder on an instruction given as `nbits` bits with the value `w`: every instruction of the block is one
byte (R60), so the bits are that byte. -/
def decodeTableWord (nbits w : Nat) : Option Instr :=
  if nbits ≤ 8 ∧ w < 2 ^ nbits then
    match decode (BitVec.ofNat 8 w) with
    | .ok i => some i
    | .error _ => none
  else none

end Sys2Proof
end

