-- ==== Sys2Proof/Config.lean ====
section
/-! DEFINITION. The OPEN parameters of the block: the converter constants and the data-ready masks
(spec/00_scope.md R7, R8, spec/42_convert.md R120, R130). They are configuration, not state (R173). -/

namespace Sys2Proof

/-- The two sensor families (R22): `legacy` is family 0, "CO2-only", `combined` is family 1. -/
inductive Family where
  | legacy
  | combined
deriving DecidableEq, Repr

/-- The three channels of the converter (R120). -/
inductive Channel where
  | co2
  | tmp
  | hum
deriving DecidableEq, Repr

/-- The constants `(MUL, DIV, OFF)` of one linear transform (R120, R121). -/
structure Conv where
  mul : Nat := 1
  div : Nat := 1
  off : Int := 0
deriving DecidableEq, Repr, Inhabited

/-- All constants of one family: a triple for each channel and the mask of the data-ready word. -/
structure Profile where
  co2 : Conv := {}
  tmp : Conv := {}
  hum : Conv := {}
  rdyMask : Word := 0
deriving DecidableEq, Repr, Inhabited

/-- A parameter set: `CONV[f][ch]` and `RDYMASK[f]` for both families (R7). -/
structure Params where
  legacy   : Profile := {}
  combined : Profile := {}
deriving DecidableEq, Repr, Inhabited

/-- The constants of family `f`. -/
def Params.profile (p : Params) : Family → Profile
  | .legacy => p.legacy
  | .combined => p.combined

/-- The triple of a channel. -/
def Profile.conv (p : Profile) : Channel → Conv
  | .co2 => p.co2
  | .tmp => p.tmp
  | .hum => p.hum

/-- What R8 asks of every triple: `0 <= MUL < 2^32`, `1 <= DIV < 2^32`, `-2^31 <= OFF < 2^31`. -/
abbrev Conv.inRange (c : Conv) : Prop :=
  c.mul < 2 ^ 32 ∧ 1 ≤ c.div ∧ c.div < 2 ^ 32 ∧ -2 ^ 31 ≤ c.off ∧ c.off < 2 ^ 31

/-- The greatest result of a triple, `OFF + floor(65535*MUL/DIV)` (R8, R122). -/
def Conv.greatest (c : Conv) : Int := c.off + (65535 * c.mul / c.div : Nat)

/-- R8 for a signed channel (TMP): the greatest result stays below `2^31`. -/
abbrev Conv.fitsSigned (c : Conv) : Prop := c.inRange ∧ c.greatest < 2 ^ 31

/-- R8 for an unsigned channel (CO2, HUM): `OFF >= 0` and the greatest result stays below `2^32`. -/
abbrev Conv.fitsUnsigned (c : Conv) : Prop := c.inRange ∧ 0 ≤ c.off ∧ c.greatest < 2 ^ 32

/-- R8 for one family. -/
abbrev Profile.ok (p : Profile) : Prop :=
  p.co2.fitsUnsigned ∧ p.tmp.fitsSigned ∧ p.hum.fitsUnsigned

/-- R8 for a parameter set. -/
abbrev Params.ok (p : Params) : Prop := p.legacy.ok ∧ p.combined.ok

/-- A parameter set a machine may be built with. R8: a model "refuses the set (it builds no machine)" when a
constraint fails; so a set that fails cannot be written as a value of this type. The default
written here only shows that such sets exist. -/
structure ValidParams where
  params : Params := {}
  ok : params.ok := by decide
deriving DecidableEq, Repr, Inhabited

/-- The parameter set of the machine: OPEN (R7, R8; 92_eei_decisions.md D17, D19). DESIGN CHOICE (log 4): a constant
with no body. Nothing is known of it but R8, so every claim holds for every legal set. -/
opaque Config.params : ValidParams

end Sys2Proof
end

