-- ==== Sys2Proof/Machine/State.lean ====
section
/-! DEFINITION. The state of the machine as plain data: the block's twenty-two registers (spec/10_state.md R10) and
the host that drives it. -/

namespace Sys2Proof.Machine

/-- The frame buffer's contents (R29): (index, byte) pairs, indices rising, no byte equal to what an unlisted index
reads as. Log 7. -/
abbrev Memory := List Host.Cell

/-- The architectural state of the block: "the product of exactly these items" (R10). -/
structure Block where
  /-- `W0` (R11). -/
  w0     : BitVec 16
  /-- `W1` (R11). -/
  w1     : BitVec 16
  /-- `W2` (R11). -/
  w2     : BitVec 16
  /-- `B0` to `B8` (R29). -/
  buf    : Memory
  /-- `STATUS`: `ECODE` 2:0, `MATCH` 4, `READY` 5, others reserved (R17). -/
  status : BitVec 8
  /-- `CTRL`: `FAM` 0, `EXPEN` 1, `EXPW` 3:2, others reserved (R20). -/
  ctrl   : BitVec 8
  /-- `WCNT` (R23). -/
  wcnt   : BitVec 2
  /-- `LEN` (R24). -/
  len    : BitVec 4
  /-- `CHK` (R25). -/
  chk    : BitVec 8
  /-- `CRC` (R26). -/
  crc    : BitVec 8
  /-- `ERRIDX` (R27). -/
  errIdx : BitVec 2
  /-- `CO2`, an unsigned integer (R28). -/
  co2    : BitVec 32
  /-- `TEMP`, a two's-complement integer (R28). -/
  temp   : BitVec 32
  /-- `HUM`, an unsigned integer (R28). -/
  hum    : BitVec 32
deriving DecidableEq, Repr

/-- What the outside can do to the block, one access at a time (R30, R47, R70, R170). -/
inductive HostAction where
  /-- `RD reg` (R30, R70): read the register numbered `reg`. -/
  | read (reg : BitVec 8)
  /-- `WR reg, value` (R30, R31, R70): write the unsigned integer `value` to the register numbered `reg`; a write to
  `CMD` is a command (R19). -/
  | write (reg : BitVec 8) (value : Nat)
  /-- The hardware reset input is asserted (R170, R171). DESIGN CHOICE (log 3): between two accesses. -/
  | reset
deriving DecidableEq, Repr

/-- The machine: the block, and beside it the host's side, which is the model's own (log 1). -/
structure State where
  /-- The registers of the block. -/
  blk      : Block
  /-- The accesses the host has still to make, the next one first (R47: one total order). -/
  pending  : List HostAction
  /-- The values the host's reads returned, the latest first. -/
  returned : List Nat
deriving DecidableEq, Repr

/-- What stops the machine. The block itself never stops: its errors are next states (R150, R154). -/
inductive Fault where
  /-- An access to byte `k` of the frame buffer with `k` above 8. Raised by `memByte` and `memSetByte`, because R9
  leaves such an access undefined. Safe: it stops. R45: no command makes one, so no step answers it. -/
  | noBufferByte (k : Nat)
deriving DecidableEq, Repr

/-- Why an instruction may have no meaning in the model. -/
inductive Refusal where
  /-- The instruction with this mnemonic is not modelled. Safe: it stops. Raised by no arm: every command has its meaning. -/
  | notModelled (mnemonic : String)
deriving DecidableEq, Repr

/-- The block after reset: all zero but `CRC` (R34, R171). -/
def Block.reset : Block where
  w0     := 0x0000
  w1     := 0x0000
  w2     := 0x0000
  buf    := []
  status := 0x00
  ctrl   := 0x00
  wcnt   := 0
  len    := 0
  chk    := 0x00
  crc    := 0xFF
  errIdx := 0
  co2    := 0x00000000
  temp   := 0x00000000
  hum    := 0x00000000

/-- The machine right after reset: the block at its reset values, the host with nothing to do and nothing read
(DESIGN CHOICE for the host's two fields, log 1). -/
def State.reset : State where
  blk      := Block.reset
  pending  := []
  returned := []

end Sys2Proof.Machine
end

