-- ==== Sys2Proof/Machine/Flags.lean ====
section
/-! DEFINITION. The fields of `STATUS` and `CTRL` (spec/10_state.md R16 to R22). -/

namespace Sys2Proof.Machine

/-- The error codes of `STATUS.ECODE` (R18). Codes 4 to 7 are reserved and have no name here (U11). -/
inductive ErrorCode where
  | ok
  | checksum
  | length
  | illegal
deriving DecidableEq, Repr

/-- The number of an error code (R18). -/
def ErrorCode.bits : ErrorCode → BitVec 3
  | .ok => 0
  | .checksum => 1
  | .length => 2
  | .illegal => 3

/-- `STATUS.ECODE`, bits 2:0 (R17). -/
def statusEcode (st : BitVec 8) : BitVec 3 := st.extractLsb' 0 3

/-- `STATUS.MATCH`, bit 4 (R16, R17). -/
def statusMatch (st : BitVec 8) : Bool := st.getLsbD 4

/-- `STATUS.READY`, bit 5 (R16, R17). -/
def statusReady (st : BitVec 8) : Bool := st.getLsbD 5

/-- Write `ECODE`; the other bits of `STATUS` stay (R17). -/
def setEcode (st : BitVec 8) (e : ErrorCode) : BitVec 8 := (st &&& 0xF8) ||| e.bits.setWidth 8

/-- Write `MATCH`; the other bits of `STATUS` stay (R16). -/
def setMatch (st : BitVec 8) (v : Bool) : BitVec 8 := (st &&& 0xEF) ||| (if v then 0x10 else 0x00)

/-- Write `READY`; the other bits of `STATUS` stay (R16). -/
def setReady (st : BitVec 8) (v : Bool) : BitVec 8 := (st &&& 0xDF) ||| (if v then 0x20 else 0x00)

/-- `STATUS` as the host reads it: the reserved bits 3, 6 and 7 read 0 (R17). -/
def statusRead (st : BitVec 8) : BitVec 8 := st &&& 0x37

/-- `CTRL.FAM`, bit 0: 0 selects the CO2-only family, 1 the combined one (R20, R22). -/
def ctrlFam (ct : BitVec 8) : Family := if ct.getLsbD 0 then .combined else .legacy

/-- `CTRL.EXPEN`, bit 1 (R20, R21). -/
def ctrlExpen (ct : BitVec 8) : Bool := ct.getLsbD 1

/-- `CTRL.EXPW`, bits 3:2 (R20, R21). -/
def ctrlExpw (ct : BitVec 8) : BitVec 2 := ct.extractLsb' 2 2

/-- `CTRL` as the host reads it: the reserved bits 7:4 read 0 (R20). -/
def ctrlRead (ct : BitVec 8) : BitVec 8 := ct &&& 0x0F

/-- What a host write of `v` leaves in `CTRL`: bits 3:0 are stored, the others dropped (R20, R31). -/
def ctrlWrite (v : Nat) : BitVec 8 := BitVec.ofNat 8 (v % 16)

end Sys2Proof.Machine
end

