-- ==== Sys2Proof/Machine/Operands.lean ====
section
/-! DEFINITION. The operands of the commands: the word register a format-R byte names, and the operands that stand in
registers (spec/30_encoding.md R60, R68, spec/10_state.md R12, R21 to R24). -/

namespace Sys2Proof.Machine

/-- `W[r]` (R9, R68(b)); index 3 does not name a register (R12). -/
def Block.word (b : Block) (r : BitVec 2) : Option (BitVec 16) :=
  match r.toNat with
  | 0 => some b.w0
  | 1 => some b.w1
  | 2 => some b.w2
  | _ => none

/-- The three word registers in order. -/
def Block.words (b : Block) : List (BitVec 16) := [b.w0, b.w1, b.w2]

/-- The words `FRM.ENC` frames: `W[0]` to `W[WCNT-1]` (R12, R23, R103). -/
def Block.frameWords (b : Block) : List (BitVec 16) := b.words.take b.wcnt.toNat

/-- The word count `FRM.DEC` must find, when `CTRL.EXPEN` asks for the test (R21, R104). -/
def Block.expected (b : Block) : Option Nat :=
  if ctrlExpen b.ctrl then some (ctrlExpw b.ctrl).toNat else none

/-- The family whose constants the converter uses (R22). -/
def Block.family (b : Block) : Family := ctrlFam b.ctrl

end Sys2Proof.Machine
end

