-- ==== Sys2Proof/Machine/Ops.lean ====
section
/-! DEFINITION. The operations the commands share: the frame buffer, the parts of a word, ending a command with success or
with an error (spec/00_scope.md R9, spec/20_memory.md, spec/60_exceptions.md R154). -/

namespace Sys2Proof.Machine

/-! ## The frame buffer -/

/-- How many bytes the frame buffer has (R7 `BUFLEN`). -/
def bufLen : Nat := 9

/-- What an index that no pair lists reads as: the reset value of the buffer's bytes (R29, R34). -/
def Memory.blank : BitVec 8 := 0x00

/-- The canonical form: indices rising, all in the buffer, no byte that an unlisted index would read as. -/
abbrev Memory.wf (m : Memory) : Prop :=
  List.Pairwise (fun c d : Host.Cell => c.1 < d.1) m ∧ ∀ c ∈ m, c.1 < bufLen ∧ c.2 ≠ Memory.blank

/-- The byte at index `k`. -/
def Memory.lookup : Memory → Nat → BitVec 8
  | [], _ => Memory.blank
  | c :: m, k => if c.1 = k then c.2 else Memory.lookup m k

/-- Take index `k` off the list: it then reads as blank. -/
def Memory.erase (m : Memory) (k : Nat) : Memory := List.filter (fun c : Host.Cell => c.1 != k) m

/-- Put a pair in its place among rising indices. -/
def Memory.insert (c : Host.Cell) : Memory → Memory
  | [] => [c]
  | d :: m => if c.1 < d.1 then c :: d :: m else d :: Memory.insert c m

/-- Write the byte `v` at index `k`, keeping the canonical form. -/
def Memory.set (m : Memory) (k : Nat) (v : BitVec 8) : Memory :=
  if v = Memory.blank then Memory.erase m k else Memory.insert (k, v) (Memory.erase m k)

/-- Read byte `k` of the buffer; a byte that does not exist is a fault (R9, R45). -/
def memByte (m : Memory) (k : Nat) : Except Fault (BitVec 8) :=
  if k < bufLen then .ok (m.lookup k) else .error (.noBufferByte k)

/-- Write byte `k` of the buffer; a byte that does not exist is a fault (R9, R45). -/
def memSetByte (m : Memory) (k : Nat) (v : BitVec 8) : Except Fault Memory :=
  if k < bufLen then .ok (m.set k v) else .error (.noBufferByte k)

/-- `MemRead(k, n)`: the bytes `B[k]` to `B[k+n-1]` in that order (R9). -/
def memRead (m : Memory) (k : Nat) : Nat → Except Fault (List (BitVec 8))
  | 0 => .ok []
  | n + 1 =>
    match memByte m k with
    | .error f => .error f
    | .ok v =>
      match memRead m (k + 1) n with
      | .error f => .error f
      | .ok vs => .ok (v :: vs)

/-- `MemWrite(k, n, bytes)` with `n` the length of `bytes`: write them to `B[k]`, `B[k+1]`, ... (R9). -/
def memWrite (m : Memory) (k : Nat) : List (BitVec 8) → Except Fault Memory
  | [] => .ok m
  | v :: vs =>
    match memSetByte m k v with
    | .error f => .error f
    | .ok m' => memWrite m' (k + 1) vs

/-! ## The parts of a word -/

/-- `w[15:8]`, the byte that comes first on the wire (R41). -/
def hiByte (w : BitVec 16) : BitVec 8 := w.extractLsb' 8 8

/-- `w[7:0]` (R41). -/
def loByte (w : BitVec 16) : BitVec 8 := w.extractLsb' 0 8

/-- `h : l`, the word of a group (R9, R68(a)). -/
def joinBytes (h l : BitVec 8) : BitVec 16 := h ++ l

/-! ## Ending a command -/

/-- `STATUS.ECODE <- 0`: the command completed (R17). -/
def succeed (b : Block) : Block := { b with status := setEcode b.status .ok }

/-- The errors a command can raise (R9, R150). -/
inductive CommandError where
  | illegalCommand
  | lengthError
  | checksumError (i : Nat)
deriving DecidableEq, Repr

/-- `W0, W1, W2 <- 0x0000; WCNT <- 0; ERRIDX <- i`: no word of a bad frame is left (R107, R154). -/
def discardFrame (i : Nat) (b : Block) : Block :=
  { b with w0 := 0, w1 := 0, w2 := 0, wcnt := 0, errIdx := BitVec.ofNat 2 i }

/-- Taking an exception: `raise` as R154 defines it. Nothing is saved and control goes nowhere; there is no return
(R156), the block accepts the next command at once. -/
def raise (e : CommandError) (b : Block) : Block :=
  match e with
  | .illegalCommand => { b with status := setEcode b.status .illegal }
  | .lengthError => { discardFrame 0 b with status := setEcode b.status .length }
  | .checksumError i => { discardFrame i b with status := setEcode b.status .checksum }

/-- The state with another block; the host's side is out of a command's reach. -/
def State.withBlk (s : State) (b : Block) : State := { s with blk := b }

/-- End a command that needs no buffer access: it cannot fault. -/
def completes (s : State) (b : Block) : Host.Outcome State Fault Refusal := .next (s.withBlk b)

/-- End a command that makes buffer accesses: a fault of one of them stops the machine. -/
def completesOrFaults (s : State) : Except Fault Block → Host.Outcome State Fault Refusal
  | .ok b => .next (s.withBlk b)
  | .error f => .fault f

/-- Run a format-R command on the word its field names. Field 3 names none: "a command with register field 3 is
illegal" (R12, R62), so it raises `IllegalCommand`. DEDUCED (log 6): the decoder never makes such a term. -/
def onWord (r : BitVec 2) (s : State) (f : BitVec 16 → Block → Block) : Host.Outcome State Fault Refusal :=
  match s.blk.word r with
  | some w => completes s (f w s.blk)
  | none => completes s (raise .illegalCommand s.blk)

/-- What the block does with a byte that selects no command (R65, R153, R155). -/
def illegalCommand (s : State) : Host.Outcome State Fault Refusal :=
  completes s (raise .illegalCommand s.blk)

end Sys2Proof.Machine
end

