-- ==== Sys2Proof/Machine/Bus.lean ====
section
/-! DEFINITION. The host's register accesses by number, and the notation for a host's program (spec/10_state.md R30 to R32,
spec/30_encoding.md R70, R71). -/

namespace Sys2Proof.Machine

/-- The number of `CMD` (R19, R32). -/
def cmdReg : BitVec 8 := 0x00

/-- What a read of register number `n` returns, as an unsigned integer (R30, R32). `CMD` and every reserved number read
0, and so do the reserved bits of `STATUS` and `CTRL` (R17, R19, R20). -/
def readReg (b : Block) (n : BitVec 8) : Nat :=
  match n.toNat with
  | 0x00 => 0
  | 0x01 => (statusRead b.status).toNat
  | 0x02 => (ctrlRead b.ctrl).toNat
  | 0x03 => b.wcnt.toNat
  | 0x04 => b.len.toNat
  | 0x05 => b.chk.toNat
  | 0x06 => b.crc.toNat
  | 0x07 => b.errIdx.toNat
  | 0x08 => b.w0.toNat
  | 0x09 => b.w1.toNat
  | 0x0A => b.w2.toNat
  | 0x0C => b.co2.toNat
  | 0x0D => b.temp.toNat
  | 0x0E => b.hum.toNat
  | k => if 0x10 ≤ k ∧ k < 0x10 + bufLen then (b.buf.lookup (k - 0x10)).toNat else 0

/-- What a write of the unsigned integer `v` to register number `n` does (R30, R31, R32): a read-write register takes
`v` cut to its width, a read-only register or a reserved number ignores the write. `CMD` is not served here. -/
def writeReg (b : Block) (n : BitVec 8) (v : Nat) : Block :=
  match n.toNat with
  | 0x02 => { b with ctrl := ctrlWrite v }
  | 0x03 => { b with wcnt := BitVec.ofNat 2 v }
  | 0x04 => { b with len := BitVec.ofNat 4 v }
  | 0x05 => { b with chk := BitVec.ofNat 8 v }
  | 0x08 => { b with w0 := BitVec.ofNat 16 v }
  | 0x09 => { b with w1 := BitVec.ofNat 16 v }
  | 0x0A => { b with w2 := BitVec.ofNat 16 v }
  | k =>
    if 0x10 ≤ k ∧ k < 0x10 + bufLen then { b with buf := b.buf.set (k - 0x10) (BitVec.ofNat 8 v) } else b

/-- The command byte of a write of `v` to `CMD`. DEDUCED (log 5): an over-wide value is cut to the register's 8 bits. -/
def commandByte (v : Nat) : BitVec 8 := BitVec.ofNat 8 v

/-- `RD n`: the host gets the value, the block stays as it is (R30, R44). -/
def hostRead (n : BitVec 8) (s : State) : Host.Outcome State Fault Refusal :=
  .next { s with returned := readReg s.blk n :: s.returned }

/-- `WR n, v` for a register other than `CMD` (R30, R31). -/
def hostWrite (n : BitVec 8) (v : Nat) (s : State) : Host.Outcome State Fault Refusal :=
  completes s (writeReg s.blk n v)

/-- The reset input: every item of state takes its reset value (R170, R171). -/
def hardwareReset (s : State) : Host.Outcome State Fault Refusal := completes s Block.reset

/-- With no access to serve the block does nothing (R156, R182; log 2). -/
def idle (s : State) : Host.Outcome State Fault Refusal := .next s

/-! ## Host programs -/

/-- A command line: the write of the command's byte to `CMD` (R70). -/
def HostAction.command (i : Instr) : HostAction := .write cmdReg (encode i).toNat

/-- Writes of consecutive registers from number `n` up. -/
def writesFrom (n : Nat) : List Nat → List HostAction
  | [] => []
  | v :: vs => .write (BitVec.ofNat 8 n) v :: writesFrom (n + 1) vs

/-- `LDW w0, ...` for 0 to 3 words: the words from `W0` up, then their count to `WCNT` (R71). -/
def HostAction.ldw (ws : List (BitVec 16)) : List HostAction :=
  writesFrom 0x08 (ws.map BitVec.toNat) ++ [.write 0x03 ws.length]

/-- `LDF b0, ...` for 0 to 9 bytes: the bytes from `B0` up, then their count to `LEN` (R71). -/
def HostAction.ldf (bs : List (BitVec 8)) : List HostAction :=
  writesFrom 0x10 (bs.map BitVec.toNat) ++ [.write 0x04 bs.length]

/-- `SETCTRL fam, expen, expw` (R71). -/
def HostAction.setctrl (fam expen expw : Nat) : HostAction := .write 0x02 (fam + 2 * expen + 4 * expw)

/-- `n` as hexadecimal digits, at least `width` of them. -/
def hexDigits (width n : Nat) : List Char :=
  let ds := (Nat.toDigits 16 n).map Char.toUpper
  List.replicate (width - ds.length) '0' ++ ds

/-- The record of an access, `W nn vvvvvvvv` or `R nn` (R70). The reset input is no access and has no record. -/
def HostAction.record : HostAction → Option String
  | .read n => some (String.ofList ('R' :: ' ' :: hexDigits 2 n.toNat))
  | .write n v => some (String.ofList ('W' :: ' ' :: hexDigits 2 n.toNat ++ ' ' :: hexDigits 8 v))
  | .reset => none

end Sys2Proof.Machine
end

