-- ==== Sys2Proof/Machine/Control.lean ====
section
/-! DEFINITION. The control commands `NOP` and `CLR` (spec/43_control.md). -/

namespace Sys2Proof.Machine

/-- `NOP` (R140): nothing, and `STATUS.ECODE` stays. -/
def execNop (s : State) : Host.Outcome State Fault Refusal := completes s s.blk

/-- `CLR` (R141, R172): every register to its reset value. -/
def execClr (s : State) : Host.Outcome State Fault Refusal := completes s Block.reset

end Sys2Proof.Machine
end

