-- ==== Sys2Proof/Machine/Convert.lean ====
section
/-! DEFINITION. The measurement converter: `lin`, `ready` and the commands `CNV.CO2`, `CNV.TMP`, `CNV.HUM`, `CNV.RDY`,
`CNV.ALL` (spec/42_convert.md). Every function takes the parameters as an argument; the commands give it the machine's. -/

namespace Sys2Proof.Machine

/-- The linear transform on exact integers, `OFF + floor(raw * MUL / DIV)` (R121, R134). -/
def linConv (c : Conv) (raw : Nat) : Int := c.off + (raw * c.mul / c.div : Nat)

/-- `lin(f, ch, raw)` (R121). -/
def lin (p : Params) (f : Family) (ch : Channel) (raw : Nat) : Int := linConv ((p.profile f).conv ch) raw

/-- An integer in a 32-bit result register (`zext_32`, `tc_32`, R9): R122 says that nothing is cut off. -/
def resultBits (n : Int) : BitVec 32 := BitVec.ofInt 32 n

/-- `ready(f, w)` (R130). -/
def ready (p : Params) (f : Family) (w : BitVec 16) : Bool := (w &&& (p.profile f).rdyMask) != 0

/-- `CO2 <- zext_32(lin(FAM, CO2, u(w)))` (R127, R133). -/
def convCo2 (p : Params) (w : BitVec 16) (b : Block) : Block :=
  { b with co2 := resultBits (lin p b.family .co2 w.toNat) }

/-- `TEMP <- tc_32(lin(FAM, TMP, u(w)))` (R128, R133); the raw word is unsigned (R125). -/
def convTmp (p : Params) (w : BitVec 16) (b : Block) : Block :=
  { b with temp := resultBits (lin p b.family .tmp w.toNat) }

/-- `HUM <- zext_32(lin(FAM, HUM, u(w)))` (R129, R133); nothing is clamped (R125). -/
def convHum (p : Params) (w : BitVec 16) (b : Block) : Block :=
  { b with hum := resultBits (lin p b.family .hum w.toNat) }

/-- `READY <- ready(FAM, w)` (R132). -/
def convRdy (p : Params) (w : BitVec 16) (b : Block) : Block :=
  { b with status := setReady b.status (ready p b.family w) }

/-- The three conversions of a measurement: `W0` as CO2, `W1` as temperature, `W2` as humidity (R133). -/
def convAll (p : Params) (b : Block) : Block := convHum p b.w2 (convTmp p b.w1 (convCo2 p b.w0 b))

/-- `CNV.CO2 r` (R127). -/
def execCnvCo2 (r : BitVec 2) (s : State) : Host.Outcome State Fault Refusal :=
  onWord r s fun w b => succeed (convCo2 Config.params.params w b)

/-- `CNV.TMP r` (R128). -/
def execCnvTmp (r : BitVec 2) (s : State) : Host.Outcome State Fault Refusal :=
  onWord r s fun w b => succeed (convTmp Config.params.params w b)

/-- `CNV.HUM r` (R129). -/
def execCnvHum (r : BitVec 2) (s : State) : Host.Outcome State Fault Refusal :=
  onWord r s fun w b => succeed (convHum Config.params.params w b)

/-- `CNV.RDY r` (R132). -/
def execCnvRdy (r : BitVec 2) (s : State) : Host.Outcome State Fault Refusal :=
  onWord r s fun w b => succeed (convRdy Config.params.params w b)

/-- `CNV.ALL` (R133). -/
def execCnvAll (s : State) : Host.Outcome State Fault Refusal :=
  completes s (succeed (convAll Config.params.params s.blk))

/-! ## The spec's two profiles

No command uses them: the machine's parameters are `Config.params`. They are here for the spec's vectors (log 11). -/

/-- The rows of `PROFILE_REF` for family 1, with `RDYMASK[1]` (R123, R131). -/
def profileRef : Profile where
  co2 := { mul := 1, div := 1, off := 0 }
  tmp := { mul := 175000, div := 65535, off := -45000 }
  hum := { mul := 100000, div := 65535, off := 0 }
  rdyMask := 0x07FF

/-- `PROFILE_REF` for family 0 (R123): `CONV[0][CO2]` is the identity. `CONV[0][TMP]`, `CONV[0][HUM]` and `RDYMASK[0]` "have
no reference value" (R123, R131), so they are arguments. -/
def profileRef0 (tmp hum : Conv) (rdyMask : BitVec 16) : Profile where
  co2 := { mul := 1, div := 1, off := 0 }
  tmp := tmp
  hum := hum
  rdyMask := rdyMask

/-- The reference profile of both families, with what it leaves open in family 0 as arguments (R123, R131). -/
def referenceParams (tmp0 hum0 : Conv) (rdyMask0 : BitVec 16) : Params where
  legacy := profileRef0 tmp0 hum0 rdyMask0
  combined := profileRef

/-- `PROFILE_T0` for family 0 (R124). -/
def profileT0 : Profile where
  co2 := { mul := 1, div := 1, off := 0 }
  tmp := { mul := 200, div := 3, off := -4000 }
  hum := { mul := 1000, div := 512, off := 0 }
  rdyMask := 0x0001

/-- The parameter set of the spec's vectors: test profile for family 0, reference profile for family 1
(95_test_vectors.md). -/
def vectorParams : Params where
  legacy := profileT0
  combined := profileRef

end Sys2Proof.Machine
end

