-- ==== Sys2Proof/Machine/Crc.lean ====
section
/-! DEFINITION. The checksum engine: `crc8` and the commands `CRC.CALC`, `CRC.VRFY` (spec/40_crc.md). -/

namespace Sys2Proof.Machine

/-- The polynomial's low eight coefficients (R7, R80). -/
def crcPoly : BitVec 8 := 0x31

/-- The running register before the first byte (R7, R80). -/
def crcInit : BitVec 8 := 0xFF

/-- One round: bit 7 is tested before the shift that pushes it out (R81; conflict C1). -/
def crc8Round (c : BitVec 8) : BitVec 8 :=
  if c.getLsbD 7 then (c <<< 1) ^^^ crcPoly else c <<< 1

/-- `n` rounds. -/
def crc8Rounds : Nat → BitVec 8 → BitVec 8
  | 0, c => c
  | n + 1, c => crc8Rounds n (crc8Round c)

/-- One byte: XORed in whole, then eight rounds (R82). -/
def crc8Byte (c d : BitVec 8) : BitVec 8 := crc8Rounds 8 (c ^^^ d)

/-- One word: from `0xFF`, the high byte first (R83). -/
def crc8 (w : BitVec 16) : BitVec 8 := crc8Byte (crc8Byte crcInit (hiByte w)) (loByte w)

/-- Verification (R84): a mismatch is a result, not an error. -/
def crc8Ok (w : BitVec 16) (k : BitVec 8) : Bool := crc8 w == k

/-- `CRC.CALC r` (R88). -/
def execCrcCalc (r : BitVec 2) (s : State) : Host.Outcome State Fault Refusal :=
  onWord r s fun w b => succeed { b with crc := crc8 w }

/-- `CRC.VRFY r` (R89). -/
def execCrcVrfy (r : BitVec 2) (s : State) : Host.Outcome State Fault Refusal :=
  onWord r s fun w b =>
    succeed { b with crc := crc8 w, status := setMatch b.status (crc8Ok w b.chk) }

end Sys2Proof.Machine
end

