-- ==== Sys2Proof/Machine/Frame.lean ====
section
/-! DEFINITION. The word framer and deframer: the functions `encode` and `decode` on lists, and the commands `FRM.ENC`,
`FRM.DEC` on the block (spec/41_frame.md). -/

namespace Sys2Proof.Machine

/-! ## The functions on lists -/

/-- The group of a word: high byte, low byte, checksum (R41, R67). -/
def group (w : BitVec 16) : List (BitVec 8) := [hiByte w, loByte w, crc8 w]

/-- `encode(ws)` (R100). -/
def encodeFrame : List (BitVec 16) → List (BitVec 8)
  | [] => []
  | w :: ws => group w ++ encodeFrame ws

/-- The outcomes of `decode` (R101). -/
inductive FrameResult where
  | words (ws : List (BitVec 16))
  | badLength
  | badChecksum (i : Nat)
deriving DecidableEq, Repr

/-- The loop of P-R101: groups in increasing index `i`, the words of the groups before in `ws`. -/
def decodeGroups : List (BitVec 8) → Nat → List (BitVec 16) → FrameResult
  | h :: l :: k :: rest, i, ws =>
    if crc8 (joinBytes h l) ≠ k then .badChecksum i
    else decodeGroups rest (i + 1) (ws ++ [joinBytes h l])
  | _, _, ws => .words ws

/-- The length conditions on `L` bytes (R101, R105); `expect` is a word count or none. -/
def badFrameLength (L : Nat) (expect : Option Nat) : Bool :=
  decide (bufLen < L) || decide (L % 3 ≠ 0) ||
    match expect with
    | some n => decide (L ≠ 3 * n)
    | none => false

/-- `decode(bs)` with an expected word count or none: P-R101. -/
def decodeFrame (bs : List (BitVec 8)) (expect : Option Nat) : FrameResult :=
  if badFrameLength bs.length expect then .badLength else decodeGroups bs 0 []

/-! ## FRM.ENC -/

/-- The loop of P-R103: the words still to frame, the first of them word `i` of the frame. -/
def encLoop : List (BitVec 16) → Nat → Block → Except Fault Block
  | [], _, b => .ok b
  | w :: ws, i, b =>
    match memWrite b.buf (3 * i) (group w) with
    | .error f => .error f
    | .ok m => encLoop ws (i + 1) { b with buf := m, crc := crc8 w }

/-- `FRM.ENC` on the block: P-R103. -/
def frmEnc (b : Block) : Except Fault Block :=
  match encLoop b.frameWords 0 b with
  | .error f => .error f
  | .ok b' => .ok (succeed { b' with len := BitVec.ofNat 4 (3 * b.wcnt.toNat) })

/-- `FRM.ENC` (R103). -/
def execFrmEnc (s : State) : Host.Outcome State Fault Refusal :=
  completesOrFaults s (frmEnc s.blk)

/-! ## FRM.DEC -/

/-- How the loop of P-R104 ends: with all words, or at the first bad group. -/
inductive LoopEnd where
  | good (ws : List (BitVec 16))
  | bad (i : Nat)
deriving DecidableEq, Repr

/-- The three bytes of group `i` (R43, P-R104). -/
def readGroup (m : Memory) (i : Nat) : Except Fault (BitVec 8 × BitVec 8 × BitVec 8) :=
  match memByte m (3 * i), memByte m (3 * i + 1), memByte m (3 * i + 2) with
  | .ok h, .ok l, .ok k => .ok (h, l, k)
  | .error f, _, _ => .error f
  | _, .error f, _ => .error f
  | _, _, .error f => .error f

/-- The loop of P-R104: `n` groups still to examine, the next one group `i`, the words so far, and `CRC` as the
groups so far left it. It answers `CRC` at its end and how it ended. -/
def decLoop (m : Memory) : (n i : Nat) → List (BitVec 16) → BitVec 8 → Except Fault (BitVec 8 × LoopEnd)
  | 0, _, t, c => .ok (c, .good t)
  | n + 1, i, t, _ =>
    match readGroup m i with
    | .error f => .error f
    | .ok (h, l, k) =>
      if crc8 (joinBytes h l) ≠ k then .ok (crc8 (joinBytes h l), .bad i)
      else decLoop m n (i + 1) (t ++ [joinBytes h l]) (crc8 (joinBytes h l))

/-- The registers `FRM.DEC` writes when every group is good (P-R104): the words, zero above them, their count. -/
def deliverFrame (ws : List (BitVec 16)) (b : Block) : Block :=
  { b with
    w0 := ws.getD 0 0, w1 := ws.getD 1 0, w2 := ws.getD 2 0
    wcnt := BitVec.ofNat 2 ws.length, errIdx := 0 }

/-- `FRM.DEC` on the block: P-R104. The length test comes before any checksum (R155). -/
def frmDec (b : Block) : Except Fault Block :=
  if badFrameLength b.len.toNat b.expected then .ok (raise .lengthError b)
  else
    match decLoop b.buf (b.len.toNat / 3) 0 [] b.crc with
    | .error f => .error f
    | .ok (c, .bad i) => .ok (raise (.checksumError i) { b with crc := c })
    | .ok (c, .good ws) => .ok (succeed (deliverFrame ws { b with crc := c }))

/-- `FRM.DEC` (R104). -/
def execFrmDec (s : State) : Host.Outcome State Fault Refusal :=
  completesOrFaults s (frmDec s.blk)

end Sys2Proof.Machine
end

