-- ==== Sys2Proof/Machine/Dispatch.lean ====
section
/-! DEFINITION. Which meaning each command has (spec/30_encoding.md R64). -/

namespace Sys2Proof.Machine

def exec (i : Instr) (s : State) : Host.Outcome State Fault Refusal :=
  match i with
  | .nop => Sys2Proof.Machine.execNop s
  | .crcCalc r => Sys2Proof.Machine.execCrcCalc r s
  | .crcVrfy r => Sys2Proof.Machine.execCrcVrfy r s
  | .frmEnc => Sys2Proof.Machine.execFrmEnc s
  | .frmDec => Sys2Proof.Machine.execFrmDec s
  | .cnvCo2 r => Sys2Proof.Machine.execCnvCo2 r s
  | .cnvTmp r => Sys2Proof.Machine.execCnvTmp r s
  | .cnvHum r => Sys2Proof.Machine.execCnvHum r s
  | .cnvRdy r => Sys2Proof.Machine.execCnvRdy r s
  | .cnvAll => Sys2Proof.Machine.execCnvAll s
  | .clr => Sys2Proof.Machine.execClr s

end Sys2Proof.Machine
end

