-- ==== Sys2Proof/Machine/Step.lean ====
section
/-! DEFINITION. One step: the block serves the host's next access (spec/20_memory.md R47, spec/43_control.md R145). -/

namespace Sys2Proof.Machine

/-- A byte arrives at `CMD`: decode it first, then run the command or raise `IllegalCommand` (R19, R63, R155). -/
def command (c : BitVec 8) (s : State) : Host.Outcome State Fault Refusal :=
  match decode c with
  | .ok i => exec i s
  | .error _ => illegalCommand s

/-- Serve one access. -/
def serve (a : HostAction) (s : State) : Host.Outcome State Fault Refusal :=
  match a with
  | .read n => hostRead n s
  | .write n v => if n = cmdReg then command (commandByte v) s else hostWrite n v s
  | .reset => hardwareReset s

/-- One step: the first pending access is served, completely, before the next (R145). -/
def step (s : State) : Host.Outcome State Fault Refusal :=
  match s.pending with
  | [] => idle s
  | a :: rest => serve a { s with pending := rest }

/-- `s` with the command whose bits are `w` as the host's next access (log 1): the block fetches nothing (R14, R50), it
executes what the host writes to `CMD`. -/
def State.withFetchWord (s : State) (nbits w : Nat) : State :=
  { s with pending := .write cmdReg (w % 2 ^ nbits) :: s.pending }

end Sys2Proof.Machine
end

