-- ==== Sys2Proof/Safety.lean ====
section
/-! DEFINITION. What a good state is and what a safe run is. -/

namespace Sys2Proof.Machine

/-- The invariant of the block. The buffer is in canonical form; the reserved bits of `STATUS` are 0 and `ECODE` is one of
its four codes (R17, R18, U11, U12); the reserved bits of `CTRL` are 0 (R20, U12); `ERRIDX` is not 3 (R27, U15). -/
structure Block.Inv (b : Block) : Prop where
  bufCanonical   : b.buf.wf
  statusReserved : b.status &&& 0xC8 = 0
  ecodeLegal     : (statusEcode b.status).toNat ≤ 3
  ctrlReserved   : b.ctrl &&& 0xF0 = 0
  errIdxLegal    : b.errIdx ≠ 3

/-- A state is good when its block is; the host may do and have read anything. -/
def State.Inv (s : State) : Prop := s.blk.Inv

/-- A run from `s` is safe when no number of steps ends in a fault or a refusal: nothing in the block hangs or is stuck
(spec/00_scope.md section 7, R145, R146). -/
def State.Safe (s : State) : Prop := ∀ k, ∃ t, Host.Core.run Sys2Proof.core k s = .next t

end Sys2Proof.Machine
end

