-- ==== Sys2Proof/Certificates/Slice0/Obligations.lean ====
section
/-! DEFINITION. What is claimed of the model, from the numbered rules of spec/. Bit masks, offsets and codes are written
out here from the rules, not taken from the model, where a rule gives them. -/

open Sys2Proof Sys2Proof.Machine

/-! ## Words the statements use -/

namespace Sys2Proof.Machine

/-- `W[r]` for a field that names a word register (R11, R68(b)); with `r` = 3 it means nothing. -/
def namedWord (b : Block) (r : BitVec 2) : BitVec 16 := if r = 0 then b.w0 else if r = 1 then b.w1 else b.w2

/-- Bit `p` of a byte list flipped, bit positions counted through the list, eight per byte (R106). -/
def flipBit (bs : List (BitVec 8)) (p : Nat) : List (BitVec 8) := bs.modify (p / 8) fun v => v ^^^ (1#8 <<< (p % 8))

/-- Byte `p / 8` of a frame buffer with bit `p % 8` flipped. -/
def flipBufBit (b : Block) (p : Nat) : Block :=
  { b with buf := b.buf.set (p / 8) (Memory.lookup b.buf (p / 8) ^^^ (1#8 <<< (p % 8))) }

/-- A group as 24 bits, high byte, low byte, checksum: does it verify (R84)? -/
def groupVerifies (g : BitVec 24) : Bool := crc8Ok (g.extractLsb' 8 16) (g.extractLsb' 0 8)

/-- The illegal bytes as R65 lists them. -/
def listedIllegal (c : BitVec 8) : Prop :=
  let n := c.toNat
  (0xA0 ≤ n ∧ n ≤ 0xEF) ∨
  (0x01 ≤ n ∧ n ≤ 0x0F) ∨ (0x31 ≤ n ∧ n ≤ 0x3F) ∨ (0x41 ≤ n ∧ n ≤ 0x4F) ∨ (0x91 ≤ n ∧ n ≤ 0x9F) ∨
  (0xF1 ≤ n ∧ n ≤ 0xFF) ∨
  (n / 16 ∈ [0x1, 0x2, 0x5, 0x6, 0x7, 0x8] ∧ 0x3 ≤ n % 16)

/-- The register numbers that are reserved (R30, R32). -/
def reservedReg (n : BitVec 8) : Prop := n = 0x0B ∨ n = 0x0F ∨ 0x19 ≤ n.toNat

/-- The registers the host may not change (R30). -/
def readOnlyReg (n : BitVec 8) : Prop := n ∈ [(0x01 : BitVec 8), 0x06, 0x07, 0x0C, 0x0D, 0x0E]

/-- How many bits a host write to a read-write register stores (R31); none for other numbers. -/
def storedBits (n : BitVec 8) : Option Nat :=
  match n.toNat with
  | 0x02 => some 4
  | 0x03 => some 2
  | 0x04 => some 4
  | 0x05 => some 8
  | 0x08 => some 16
  | 0x09 => some 16
  | 0x0A => some 16
  | k => if 0x10 ≤ k ∧ k ≤ 0x18 then some 8 else none

/-- Run commands one after another; nothing if one of them stops. -/
def runCommands : List Instr → State → Option State
  | [], s => some s
  | i :: is, s =>
    match exec i s with
    | .next t => runCommands is t
    | .fault _ => none
    | .refused _ => none

/-- The conditions under which `FRM.DEC` raises `LengthError`, on the bits of the registers (R105, R152). -/
def lengthBad (b : Block) : Prop :=
  9 < b.len.toNat ∨ b.len.toNat % 3 ≠ 0 ∨
    (b.ctrl.getLsbD 1 = true ∧ b.len.toNat ≠ 3 * (b.ctrl.extractLsb' 2 2).toNat)

/-- The word of group `i` of a frame buffer, high byte first (R41, R68(a)). -/
def groupWord (b : Block) (i : Nat) : BitVec 16 := Memory.lookup b.buf (3 * i) ++ Memory.lookup b.buf (3 * i + 1)

/-- Group `i` of a frame buffer carries the checksum of its word. -/
def groupMatches (b : Block) (i : Nat) : Prop := crc8 (groupWord b i) = Memory.lookup b.buf (3 * i + 2)

/-- Which register each number reads, on the bits of the registers (R32); reserved bits read 0 (R17, R20). -/
def readsAsMapped (b : Block) : Prop :=
  readReg b 0x00 = 0 ∧ readReg b 0x01 = (b.status &&& 0x37).toNat ∧ readReg b 0x02 = b.ctrl.toNat % 16 ∧
  readReg b 0x03 = b.wcnt.toNat ∧ readReg b 0x04 = b.len.toNat ∧ readReg b 0x05 = b.chk.toNat ∧
  readReg b 0x06 = b.crc.toNat ∧ readReg b 0x07 = b.errIdx.toNat ∧ readReg b 0x08 = b.w0.toNat ∧
  readReg b 0x09 = b.w1.toNat ∧ readReg b 0x0A = b.w2.toNat ∧ readReg b 0x0C = b.co2.toNat ∧
  readReg b 0x0D = b.temp.toNat ∧ readReg b 0x0E = b.hum.toNat ∧
  (∀ k ≤ 8, readReg b (BitVec.ofNat 8 (0x10 + k)) = (Memory.lookup b.buf k).toNat) ∧
  ∀ n, reservedReg n → readReg b n = 0

/-- Every register at its reset value, as R34's table gives it. -/
def resetValues (b : Block) : Prop :=
  b.w0 = 0x0000 ∧ b.w1 = 0x0000 ∧ b.w2 = 0x0000 ∧ (∀ k, Memory.lookup b.buf k = 0x00) ∧ b.status = 0x00 ∧
  b.ctrl = 0x00 ∧ b.wcnt = 0 ∧ b.len = 0 ∧ b.chk = 0x00 ∧ b.crc = 0xFF ∧ b.errIdx = 0 ∧
  b.co2 = 0x00000000 ∧ b.temp = 0x00000000 ∧ b.hum = 0x00000000

/-- The commands that write none of the results and result flags (R16, R28, R179). -/
def keepsResults : Instr → Prop
  | .nop => True
  | .crcCalc _ => True
  | .crcVrfy _ => False
  | .frmEnc => True
  | .frmDec => True
  | .cnvCo2 _ => False
  | .cnvTmp _ => False
  | .cnvHum _ => False
  | .cnvRdy _ => False
  | .cnvAll => False
  | .clr => False

/-- The commands that read `CTRL.FAM` (R22). -/
def readsFamily : Instr → Prop
  | .nop => False
  | .crcCalc _ => False
  | .crcVrfy _ => False
  | .frmEnc => False
  | .frmDec => False
  | .cnvCo2 _ => True
  | .cnvTmp _ => True
  | .cnvHum _ => True
  | .cnvRdy _ => True
  | .cnvAll => True
  | .clr => False

end Sys2Proof.Machine

/-! ## The command byte -/

/-- R61 to R63: which byte is which command, and every accepted byte is one of these. -/
def Obligations.DecodeFollowsTheOpcodeMap : Prop :=
  ∀ c : BitVec 8,
    (decode c = .ok .nop ↔ c = 0x00) ∧
    (∀ r, decode c = .ok (.crcCalc r) ↔ r ≠ 3 ∧ c = 0x10 + r.setWidth 8) ∧
    (∀ r, decode c = .ok (.crcVrfy r) ↔ r ≠ 3 ∧ c = 0x20 + r.setWidth 8) ∧
    (decode c = .ok .frmEnc ↔ c = 0x30) ∧
    (decode c = .ok .frmDec ↔ c = 0x40) ∧
    (∀ r, decode c = .ok (.cnvCo2 r) ↔ r ≠ 3 ∧ c = 0x50 + r.setWidth 8) ∧
    (∀ r, decode c = .ok (.cnvTmp r) ↔ r ≠ 3 ∧ c = 0x60 + r.setWidth 8) ∧
    (∀ r, decode c = .ok (.cnvHum r) ↔ r ≠ 3 ∧ c = 0x70 + r.setWidth 8) ∧
    (∀ r, decode c = .ok (.cnvRdy r) ↔ r ≠ 3 ∧ c = 0x80 + r.setWidth 8) ∧
    (decode c = .ok .cnvAll ↔ c = 0x90) ∧
    (decode c = .ok .clr ↔ c = 0xF0)

/-- Encoder and decoder are inverse: on every well-formed command, and on every byte the decoder accepts. -/
def Obligations.DecodeInvertsEncode : Prop :=
  (∀ i : Instr, i.wellFormed = true → decode (encode i) = .ok i) ∧
  (∀ (c : BitVec 8) (i : Instr), decode c = .ok i → i.wellFormed = true ∧ encode i = c)

/-- R65, R153: exactly the 233 listed bytes are illegal, and such a byte written to `CMD` sets `ECODE` to 3 and changes
nothing else. -/
def Obligations.IllegalBytesOnlySetEcode : Prop :=
  (∀ c : BitVec 8, (∃ e, decode c = .error e) ↔ listedIllegal c) ∧
  Nat.card { c : BitVec 8 // listedIllegal c } = 233 ∧
  ∀ (s : State) (c : BitVec 8) (rest : List HostAction), s.pending = .write 0x00 c.toNat :: rest → listedIllegal c →
    step s = .next { s with pending := rest, blk := { s.blk with status := (s.blk.status &&& 0xF8) ||| 0x03 } }

/-- A few command bytes of the opcode map, one of each family (sanity). -/
def Obligations.SampleCommandBytes : Prop :=
  decode 0b00000000 = .ok .nop ∧ decode 0b00010001 = .ok (.crcCalc 1) ∧ decode 0b00100010 = .ok (.crcVrfy 2) ∧
  decode 0b00110000 = .ok .frmEnc ∧ decode 0b01000000 = .ok .frmDec ∧ decode 0b01100001 = .ok (.cnvTmp 1) ∧
  decode 0b10010000 = .ok .cnvAll ∧ decode 0b11110000 = .ok .clr

/-! ## A step -/

/-- A host write to `CMD` whose byte decodes to a command runs that command, on the state without that access (R19; that
a value above 255 is cut to the byte is the model's choice, log 5). -/
def Obligations.StepRunsTheDecodedCommand : Prop :=
  ∀ (s : State) (v : Nat) (rest : List HostAction) (i : Instr), s.pending = .write 0x00 v :: rest →
    decode (BitVec.ofNat 8 v) = .ok i → step s = exec i { s with pending := rest }

/-- With nothing pending the block does nothing (R182; the model's choice of what a step then is, log 2), and the reset
input puts the block at its reset values (R171; as a host action the model's choice, log 3). -/
def Obligations.IdleAndResetSteps : Prop :=
  (∀ s : State, s.pending = [] → step s = .next s) ∧
  ∀ (s : State) (rest : List HostAction), s.pending = .reset :: rest →
    step s = .next { s with pending := rest, blk := State.reset.blk }

/-- R30, R31: a read returns the register and changes no register; a write to a read-write register stores the value cut
to its width and changes no other; a write to a read-only register or a reserved number is ignored; a reserved number
reads 0. -/
def Obligations.HostAccessesReachOneRegister : Prop :=
  (∀ (s : State) (n : BitVec 8) (rest : List HostAction), s.pending = .read n :: rest →
    step s = .next { s with pending := rest, returned := readReg s.blk n :: s.returned }) ∧
  (∀ b : Block, readsAsMapped b) ∧
  ∀ (s : State) (n : BitVec 8) (v : Nat) (rest : List HostAction), s.pending = .write n v :: rest →
    (readOnlyReg n ∨ reservedReg n → step s = .next { s with pending := rest }) ∧
    (n = 0x02 → step s = .next { s with pending := rest, blk := { s.blk with ctrl := BitVec.ofNat 8 (v % 16) } }) ∧
    (n = 0x03 → step s = .next { s with pending := rest, blk := { s.blk with wcnt := BitVec.ofNat 2 (v % 4) } }) ∧
    (n = 0x04 → step s = .next { s with pending := rest, blk := { s.blk with len := BitVec.ofNat 4 (v % 16) } }) ∧
    (n = 0x05 → step s = .next { s with pending := rest, blk := { s.blk with chk := BitVec.ofNat 8 (v % 256) } }) ∧
    (n = 0x08 → step s = .next { s with pending := rest, blk := { s.blk with w0 := BitVec.ofNat 16 (v % 65536) } }) ∧
    (n = 0x09 → step s = .next { s with pending := rest, blk := { s.blk with w1 := BitVec.ofNat 16 (v % 65536) } }) ∧
    (n = 0x0A → step s = .next { s with pending := rest, blk := { s.blk with w2 := BitVec.ofNat 16 (v % 65536) } }) ∧
    ∀ k ≤ 8, n = BitVec.ofNat 8 (0x10 + k) → ∃ m : Memory,
      step s = .next { s with pending := rest, blk := { s.blk with buf := m } } ∧
      ∀ j, Memory.lookup m j = if j = k then BitVec.ofNat 8 (v % 256) else Memory.lookup s.blk.buf j

/-- Read after a register write (R30, R31, R32). After a write to a read-write register that register reads the value cut to
its width, and every other number reads as before; after a write to any other number but that of `CMD` every number reads
as before. This is no claim about a host's write to `CMD`, number `0x00`, which runs a command (R19): `writeReg` does not
serve that number and leaves the block as it is. -/
def Obligations.ReadAfterWriteAtEveryNumber : Prop :=
  ∀ (b : Block) (n m : BitVec 8) (v : Nat),
    readReg (writeReg b n v) m =
      match storedBits n with
      | some k => if m = n then v % 2 ^ k else readReg b m
      | none => readReg b m

/-- R44: writing the same value to a register twice is writing it once. -/
def Obligations.RepeatedWriteIsOneWrite : Prop :=
  ∀ (b : Block) (n : BitVec 8) (v : Nat), writeReg (writeReg b n v) n v = writeReg b n v

/-- R146: what a step does to the block depends on the block and on the access it serves, and on nothing else of the
state. -/
def Obligations.StepReadsBlockAndAccessOnly : Prop :=
  ∀ s s' t t' : State, s.blk = s'.blk → s.pending.head? = s'.pending.head? →
    step s = .next t → step s' = .next t' → t.blk = t'.blk

/-- R47: accesses are served in the order the host makes them; later ones are still pending, untouched and without any
influence, when the earlier ones are done. -/
def Obligations.AccessesAreServedInOrder : Prop :=
  ∀ (s t : State) (as bs : List HostAction),
    Host.Core.run Sys2Proof.core as.length { s with pending := as } = .next t →
      t.pending = [] ∧
      Host.Core.run Sys2Proof.core as.length { s with pending := as ++ bs } = .next { t with pending := bs }

/-! ## Reset and the whole machine -/

/-- R34: the reset value of every register. -/
def Obligations.ResetValuesOfTheBlock : Prop := resetValues State.reset.blk

/-- R141, R172: `CLR` completes from every state and leaves every register at its reset value, equal in every item to the
state after reset. -/
def Obligations.ClrLeavesTheResetState : Prop :=
  (∀ c, decode c = .ok .clr ↔ c = 0xF0) ∧ resetValues State.reset.blk ∧
  ∀ s : State, exec .clr s = .next { s with blk := State.reset.blk }

/-- The reset state meets the invariant. -/
def Obligations.ResetMeetsTheInvariant : Prop := State.reset.Inv

/-- Every step keeps the invariant: the buffer canonical, the reserved bits of `STATUS` and `CTRL` zero, `ECODE` one of
its four codes, `ERRIDX` never 3. -/
def Obligations.StepKeepsTheInvariant : Prop := ∀ s t : State, s.Inv → step s = .next t → t.Inv

/-- No run of any length from any state ends in a fault or a refusal: no command leaves the frame buffer (R45), every
command terminates (R145) and is total (R146). -/
def Obligations.NoRunEverStops : Prop := ∀ s : State, s.Safe

/-- Every command completes from every state, and reaches nothing of the host's side. -/
def Obligations.EveryCommandCompletes : Prop :=
  ∀ (i : Instr) (s : State), ∃ b : Block, exec i s = .next { s with blk := b }

/-- Equal contents are equal data: two canonical buffers that read alike at every index are the same list. -/
def Obligations.CanonicalBuffersAreEqualWhenTheyReadAlike : Prop :=
  ∀ m m' : Memory, m.wf → m'.wf → (∀ k, Memory.lookup m k = Memory.lookup m' k) → m = m'

/-- R12, R16, R20, R23 to R28, R43: what each command may write; every other register is as before. -/
def Obligations.OnlyListedCommandsWriteARegister : Prop :=
  ∀ (i : Instr) (s t : State), exec i s = .next t →
    (i ≠ .frmDec → i ≠ .clr → t.blk.w0 = s.blk.w0 ∧ t.blk.w1 = s.blk.w1 ∧ t.blk.w2 = s.blk.w2 ∧
      t.blk.wcnt = s.blk.wcnt ∧ t.blk.errIdx = s.blk.errIdx) ∧
    (i ≠ .frmEnc → i ≠ .clr → t.blk.buf = s.blk.buf ∧ t.blk.len = s.blk.len) ∧
    (i ≠ .clr → t.blk.ctrl = s.blk.ctrl ∧ t.blk.chk = s.blk.chk) ∧
    ((∀ r, i ≠ .crcCalc r) → (∀ r, i ≠ .crcVrfy r) → i ≠ .frmEnc → i ≠ .frmDec → i ≠ .clr → t.blk.crc = s.blk.crc) ∧
    ((∀ r, i ≠ .cnvCo2 r) → i ≠ .cnvAll → i ≠ .clr → t.blk.co2 = s.blk.co2) ∧
    ((∀ r, i ≠ .cnvTmp r) → i ≠ .cnvAll → i ≠ .clr → t.blk.temp = s.blk.temp) ∧
    ((∀ r, i ≠ .cnvHum r) → i ≠ .cnvAll → i ≠ .clr → t.blk.hum = s.blk.hum) ∧
    ((∀ r, i ≠ .crcVrfy r) → i ≠ .clr → t.blk.status.getLsbD 4 = s.blk.status.getLsbD 4) ∧
    ((∀ r, i ≠ .cnvRdy r) → i ≠ .clr → t.blk.status.getLsbD 5 = s.blk.status.getLsbD 5) ∧
    (i = .nop → t.blk = s.blk) ∧ t.pending = s.pending ∧ t.returned = s.returned

/-- R17, R150, R156: `NOP` keeps `STATUS`; after any other legal command `ECODE` is 0, whatever it was before, or the command
was `FRM.DEC` and it is 1 or 2. -/
def Obligations.OnlyFrmDecFails : Prop :=
  ∀ (i : Instr) (s t : State), i.wellFormed = true → exec i s = .next t →
    (i = .nop → t.blk.status = s.blk.status) ∧
    (i ≠ .nop → t.blk.status.extractLsb' 0 3 = 0 ∨
      (i = .frmDec ∧ (t.blk.status.extractLsb' 0 3 = 1 ∨ t.blk.status.extractLsb' 0 3 = 2)))

/-- R179: through any number of accesses among which no `CNV.*`, `CRC.VRFY`, `CLR` or reset is, the results and the result
flags keep their values; so a failed `FRM.DEC` does not invalidate them. -/
def Obligations.ResultsSurviveOtherAccesses : Prop :=
  ∀ (k : Nat) (s t : State),
    (∀ a ∈ s.pending, a ≠ .reset ∧ ∀ v i, a = .write 0x00 v → decode (BitVec.ofNat 8 v) = .ok i → keepsResults i) →
    Host.Core.run Sys2Proof.core k s = .next t →
      t.blk.co2 = s.blk.co2 ∧ t.blk.temp = s.blk.temp ∧ t.blk.hum = s.blk.hum ∧
      t.blk.status.getLsbD 4 = s.blk.status.getLsbD 4 ∧ t.blk.status.getLsbD 5 = s.blk.status.getLsbD 5

/-- R16: no command reads `STATUS`: from two states that differ in `STATUS` only, a command leads to two states that
differ in `STATUS` at most. -/
def Obligations.NoCommandReadsStatus : Prop :=
  ∀ (i : Instr) (s : State) (st : BitVec 8), ∃ t t' : State,
    exec i s = .next t ∧ exec i { s with blk := { s.blk with status := st } } = .next t' ∧
    t' = { t with blk := { t.blk with status := t'.blk.status } }

/-- R22: only the converter reads `CTRL.FAM`: another value of it (bits 3:1 of `CTRL` the same) changes nothing but
`CTRL` itself in what any other command leaves. -/
def Obligations.OnlyTheConverterReadsFam : Prop :=
  ∀ (i : Instr) (s : State) (ct : BitVec 8), ¬readsFamily i →
    ct.extractLsb' 1 3 = s.blk.ctrl.extractLsb' 1 3 → ∃ t t' : State,
      exec i s = .next t ∧ exec i { s with blk := { s.blk with ctrl := ct } } = .next t' ∧
      t' = { t with blk := { t.blk with ctrl := t'.blk.ctrl } }

/-- R20: `CTRL` holds four live bits; the host and `CLR` write it, and nothing else. -/
def Obligations.CtrlIsWrittenByHostAndClrOnly : Prop :=
  (∀ (s : State) (v : Nat) (rest : List HostAction), s.pending = .write 0x02 v :: rest →
    step s = .next { s with pending := rest, blk := { s.blk with ctrl := BitVec.ofNat 8 (v % 16) } }) ∧
  (∀ (i : Instr) (s t : State), exec i s = .next t → t.blk.ctrl = if i = .clr then 0x00 else s.blk.ctrl) ∧
  State.reset.blk.ctrl = 0x00 ∧ (∀ b : Block, readReg b 0x02 < 16) ∧
  ∀ b : Block, (b.family = .combined ↔ b.ctrl.getLsbD 0 = true) ∧
    b.expected = if b.ctrl.getLsbD 1 then some (b.ctrl.extractLsb' 2 2).toNat else none

/-- R154: what each error writes, bit for bit, and that it writes nothing else. -/
def Obligations.RaiseWritesExactlyTheListedRegisters : Prop :=
  ∀ b : Block,
    raise .illegalCommand b = { b with status := (b.status &&& 0xF8) ||| 0x03 } ∧
    raise .lengthError b =
      { b with w0 := 0, w1 := 0, w2 := 0, wcnt := 0, errIdx := 0, status := (b.status &&& 0xF8) ||| 0x02 } ∧
    ∀ i, raise (.checksumError i) b =
      { b with w0 := 0, w1 := 0, w2 := 0, wcnt := 0, errIdx := BitVec.ofNat 2 i,
               status := (b.status &&& 0xF8) ||| 0x01 }

/-- A command whose word-register field is 3 raises `IllegalCommand` and does nothing else (R12, R62; that the meanings
themselves do so is the model's choice, log 6). -/
def Obligations.FieldThreeIsIllegal : Prop :=
  ∀ (i : Instr) (s : State), i.wellFormed = false →
    exec i s = .next { s with blk := { s.blk with status := (s.blk.status &&& 0xF8) ||| 0x03 } }

/-! ## The checksum engine -/

/-- R86: the bits of one round. -/
def Obligations.CrcRoundBitEquations : Prop :=
  ∀ c : BitVec 8, let n := crc8Round c
    n.getLsbD 0 = c.getLsbD 7 ∧ n.getLsbD 1 = c.getLsbD 0 ∧ n.getLsbD 2 = c.getLsbD 1 ∧ n.getLsbD 3 = c.getLsbD 2 ∧
    n.getLsbD 4 = (c.getLsbD 3 ^^ c.getLsbD 7) ∧ n.getLsbD 5 = (c.getLsbD 4 ^^ c.getLsbD 7) ∧
    n.getLsbD 6 = c.getLsbD 5 ∧ n.getLsbD 7 = c.getLsbD 6

/-- R87: the table form of a byte's step and of a word's checksum. -/
def Obligations.CrcTableForm : Prop :=
  let T : BitVec 8 → BitVec 8 := crc8Byte 0x00
  (∀ c d : BitVec 8, crc8Byte c d = T (c ^^^ d)) ∧
  (∀ w : BitVec 16, crc8 w = T (T (0xFF ^^^ w.extractLsb' 8 8) ^^^ w.extractLsb' 0 8)) ∧
  T 0x00 = 0x00 ∧ T 0x01 = 0x31 ∧ T 0xFF = 0xAC

/-- R90(a), (d): a word verifies its own checksum, and a good group leaves the register at zero. -/
def Obligations.CrcVerifiesItself : Prop :=
  ∀ w : BitVec 16, crc8Ok w (crc8 w) = true ∧ crc8Byte (crc8 w) (crc8 w) = 0x00

/-- R90(f): `crc8` is affine. -/
def Obligations.CrcIsAffine : Prop :=
  crc8 0x0000 = 0x81 ∧ ∀ a b : BitVec 16, crc8 (a ^^^ b) = crc8 a ^^^ crc8 b ^^^ crc8 0x0000

/-- R90(b), (c): no flip of one bit or of two bits of a good group goes undetected. -/
def Obligations.CrcDetectsOneAndTwoBitFlips : Prop :=
  ∀ (w : BitVec 16) (p q : Nat), p < 24 → q < 24 → let g : BitVec 24 := w ++ crc8 w
    groupVerifies (g ^^^ (1#24 <<< p)) = false ∧
    (p ≠ q → groupVerifies (g ^^^ (1#24 <<< p) ^^^ (1#24 <<< q)) = false)

/-- R90(e): every checksum value occurs, each for exactly 256 words. -/
def Obligations.CrcTakesEachValue256Times : Prop := ∀ k : BitVec 8, Nat.card { w : BitVec 16 // crc8 w = k } = 256

/-- R88: `CRC.CALC r` writes `CRC` and clears `ECODE`, and changes nothing else. -/
def Obligations.CrcCalcWritesTheChecksum : Prop :=
  (∀ c r, decode c = .ok (.crcCalc r) ↔ r ≠ 3 ∧ c = 0x10 + r.setWidth 8) ∧
  (∀ (s : State) (r : BitVec 2), r ≠ 3 →
    exec (.crcCalc r) s =
      .next { s with blk := { s.blk with crc := crc8 (namedWord s.blk r), status := s.blk.status &&& 0xF8 } }) ∧
  crc8 0x0000 = 0x81 ∧ crc8 0xFF00 = 0x00 ∧ crc8 0xFFFF = 0xAC ∧ crc8 0xBEEF = 0x92

/-- R89: `CRC.VRFY r` writes `CRC`, puts the comparison with `CHK` in `MATCH` and clears `ECODE`, and changes nothing
else; a mismatch is no error. -/
def Obligations.CrcVrfyWritesMatch : Prop :=
  (∀ c r, decode c = .ok (.crcVrfy r) ↔ r ≠ 3 ∧ c = 0x20 + r.setWidth 8) ∧
  (∀ (s : State) (r : BitVec 2), r ≠ 3 →
    exec (.crcVrfy r) s =
      .next { s with blk := { s.blk with
        crc := crc8 (namedWord s.blk r)
        status := (s.blk.status &&& 0xE8) ||| (if crc8 (namedWord s.blk r) = s.blk.chk then 0x10 else 0x00) } }) ∧
  crc8 0xFF00 = 0x00 ∧ crc8 0xBEEF = 0x92

/-! ## The framer and deframer -/

/-- R100: the layout of an encoded frame. -/
def Obligations.EncodedFrameLayout : Prop :=
  encodeFrame [] = [] ∧
  ∀ ws : List (BitVec 16), ws.length ≤ 3 → (encodeFrame ws).length = 3 * ws.length ∧
    ∀ i w, ws[i]? = some w →
      (encodeFrame ws)[3 * i]? = some (w.extractLsb' 8 8) ∧ (encodeFrame ws)[3 * i + 1]? = some (w.extractLsb' 0 8) ∧
      (encodeFrame ws)[3 * i + 2]? = some (crc8 w)

/-- R101: the three outcomes of `decode`, each exactly when: a bad length whatever the bytes; else the first bad group;
else all words. -/
def Obligations.DecodeOutcomes : Prop :=
  ∀ (bs : List (BitVec 8)) (expect : Option Nat),
    let L := bs.length
    let bad := 9 < L ∨ L % 3 ≠ 0 ∨ ∃ n, expect = some n ∧ L ≠ 3 * n
    let word := fun i => (bs.getD (3 * i) 0 ++ bs.getD (3 * i + 1) 0 : BitVec 16)
    let good := fun i => crc8 (word i) = bs.getD (3 * i + 2) 0
    (decodeFrame bs expect = .badLength ↔ bad) ∧
    (∀ i, decodeFrame bs expect = .badChecksum i ↔ ¬bad ∧ i < L / 3 ∧ ¬good i ∧ ∀ j < i, good j) ∧
    (∀ ws, decodeFrame bs expect = .words ws ↔ ¬bad ∧ (∀ i < L / 3, good i) ∧ ws = (List.range (L / 3)).map word)

/-- R102: decoding an encoded frame gives its words back, with or without the expected count; and what decodes is the
encoding of what it decodes to. -/
def Obligations.FrameRoundTrip : Prop :=
  (∀ ws : List (BitVec 16), ws.length ≤ 3 →
    decodeFrame (encodeFrame ws) none = .words ws ∧ decodeFrame (encodeFrame ws) (some ws.length) = .words ws) ∧
  ∀ (bs : List (BitVec 8)) (ws : List (BitVec 16)), decodeFrame bs none = .words ws → encodeFrame ws = bs

/-- R106: any one flipped bit of an encoded frame is reported, at the group that holds it. -/
def Obligations.SingleBitFlipIsReported : Prop :=
  ∀ (ws : List (BitVec 16)) (p : Nat), 1 ≤ ws.length → ws.length ≤ 3 → p < 24 * ws.length →
    decodeFrame (flipBit (encodeFrame ws) p) none = .badChecksum (p / 24)

/-- R103: `FRM.ENC` writes exactly the bytes of the frame of `W[0]` to `W[WCNT-1]`, `LEN`, `CRC` when there is a word, and
`ECODE`; every other byte and register is as before. -/
def Obligations.FrmEncFramesTheWords : Prop :=
  (∀ c, decode c = .ok .frmEnc ↔ c = 0x30) ∧
  encodeFrame [0x01F4, 0xBEEF] = [0x01, 0xF4, 0x33, 0xBE, 0xEF, 0x92] ∧
  ∀ s : State,
    let n := s.blk.wcnt.toNat
    let ws := [s.blk.w0, s.blk.w1, s.blk.w2].take n
    ∃ m : Memory,
      exec .frmEnc s = .next { s with blk := { s.blk with
        buf := m
        len := BitVec.ofNat 4 (3 * n)
        crc := if n = 0 then s.blk.crc else crc8 (ws.getD (n - 1) 0)
        status := s.blk.status &&& 0xF8 } } ∧
      ∀ a, Memory.lookup m a = if a < 3 * n then (encodeFrame ws).getD a 0 else Memory.lookup s.blk.buf a

/-- R104: `FRM.DEC` is `decode` of the first `LEN` bytes with the expected count of `CTRL`, followed by the register writes
of the outcome; nothing else changes, in particular neither `LEN` nor the buffer. -/
def Obligations.FrmDecIsDecodeOfTheBuffer : Prop :=
  (∀ c, decode c = .ok .frmDec ↔ c = 0x40) ∧
  decodeFrame [0x01, 0xF4, 0x33, 0x66, 0x67, 0xA2, 0x5E, 0xB9, 0x3C] none = .words [0x01F4, 0x6667, 0x5EB9] ∧
  decodeFrame [0x01, 0xF4, 0x33, 0x66, 0x67, 0xA3, 0x5E, 0xB9, 0x3C] none = .badChecksum 1 ∧
  ∀ s : State,
    let b := s.blk
    let L := b.len.toNat
    let bs := (List.range L).map (Memory.lookup b.buf)
    let expect := if b.ctrl.getLsbD 1 then some (b.ctrl.extractLsb' 2 2).toNat else none
    let result : Block :=
      match decodeFrame bs expect with
      | .words ws =>
        { b with
          w0 := ws.getD 0 0, w1 := ws.getD 1 0, w2 := ws.getD 2 0
          wcnt := BitVec.ofNat 2 (L / 3), errIdx := 0
          crc := if L = 0 then b.crc else crc8 (ws.getD (L / 3 - 1) 0)
          status := b.status &&& 0xF8 }
      | .badLength =>
        { b with w0 := 0, w1 := 0, w2 := 0, wcnt := 0, errIdx := 0, status := (b.status &&& 0xF8) ||| 0x02 }
      | .badChecksum i =>
        { b with
          w0 := 0, w1 := 0, w2 := 0, wcnt := 0, errIdx := BitVec.ofNat 2 i
          crc := crc8 (bs.getD (3 * i) 0 ++ bs.getD (3 * i + 1) 0)
          status := (b.status &&& 0xF8) ||| 0x01 }
    exec .frmDec s = .next { s with blk := result }

/-- R152: `FRM.DEC` ends with `ECODE` 2 exactly under the length conditions, whatever the buffer holds, and then this is
all it writes; `LEN` keeps the offending count. -/
def Obligations.FrmDecLengthError : Prop :=
  ∀ s : State,
    (lengthBad s.blk → exec .frmDec s = .next { s with blk := { s.blk with
      w0 := 0, w1 := 0, w2 := 0, wcnt := 0, errIdx := 0, status := (s.blk.status &&& 0xF8) ||| 0x02 } }) ∧
    ∀ t, exec .frmDec s = .next t → t.blk.status.extractLsb' 0 3 = 2 → lengthBad s.blk

/-- R151: when the length is good and group `i` is the first whose checksum does not match, `FRM.DEC` records `i` and the
checksum it computed, and the failing bytes stay in the buffer. -/
def Obligations.FrmDecChecksumError : Prop :=
  ∀ (s : State) (i : Nat), ¬lengthBad s.blk → i < s.blk.len.toNat / 3 → ¬groupMatches s.blk i →
    (∀ j < i, groupMatches s.blk j) →
    i ≤ 2 ∧
    exec .frmDec s = .next { s with blk := { s.blk with
      w0 := 0, w1 := 0, w2 := 0, wcnt := 0, errIdx := BitVec.ofNat 2 i, crc := crc8 (groupWord s.blk i),
      status := (s.blk.status &&& 0xF8) ||| 0x01 } }

/-- R107: after any error of `FRM.DEC` no word of the frame is left, and the buffer is not cleared. -/
def Obligations.FailedFrmDecDiscardsTheFrame : Prop :=
  ∀ s t : State, exec .frmDec s = .next t → t.blk.status.extractLsb' 0 3 ≠ 0 →
    t.blk.w0 = 0x0000 ∧ t.blk.w1 = 0x0000 ∧ t.blk.w2 = 0x0000 ∧ t.blk.wcnt = 0 ∧ t.blk.buf = s.blk.buf

/-- R104, R183, R184: what `FRM.DEC` leaves in the words, `WCNT`, `ERRIDX` and `ECODE` depends on `LEN`, `CTRL` bits 3:1 and
the bytes below `LEN` only: not on the bytes above, not on the words before. -/
def Obligations.FrmDecReadsOnlyItsFrame : Prop :=
  ∀ (s s' t t' : State), s'.blk.len = s.blk.len → s'.blk.ctrl.extractLsb' 1 3 = s.blk.ctrl.extractLsb' 1 3 →
    (∀ k < s.blk.len.toNat, Memory.lookup s'.blk.buf k = Memory.lookup s.blk.buf k) →
    exec .frmDec s = .next t → exec .frmDec s' = .next t' →
      t'.blk.w0 = t.blk.w0 ∧ t'.blk.w1 = t.blk.w1 ∧ t'.blk.w2 = t.blk.w2 ∧ t'.blk.wcnt = t.blk.wcnt ∧
      t'.blk.errIdx = t.blk.errIdx ∧ t'.blk.status.extractLsb' 0 3 = t.blk.status.extractLsb' 0 3

/-- R103: the frame `FRM.ENC` builds depends on `WCNT` and the words below it only: not on `CTRL`, not on the other
words. -/
def Obligations.FrmEncReadsOnlyItsWords : Prop :=
  ∀ (s s' t t' : State), s'.blk.wcnt = s.blk.wcnt →
    (1 ≤ s.blk.wcnt.toNat → s'.blk.w0 = s.blk.w0) → (2 ≤ s.blk.wcnt.toNat → s'.blk.w1 = s.blk.w1) →
    (3 ≤ s.blk.wcnt.toNat → s'.blk.w2 = s.blk.w2) →
    exec .frmEnc s = .next t → exec .frmEnc s' = .next t' →
      t'.blk.len = t.blk.len ∧ ∀ k < t.blk.len.toNat, Memory.lookup t'.blk.buf k = Memory.lookup t.blk.buf k

/-- R102 on the block: `FRM.DEC` right after `FRM.ENC`, with the length check off or set to `WCNT`, succeeds and gives the
framed words back, zero above them. -/
def Obligations.DecodeAfterEncodeRestoresTheWords : Prop :=
  ∀ s : State, s.blk.ctrl.getLsbD 1 = false ∨ s.blk.ctrl.extractLsb' 2 2 = s.blk.wcnt → ∃ t u : State,
    exec .frmEnc s = .next t ∧ exec .frmDec t = .next u ∧
    u.blk.w0 = (if 1 ≤ s.blk.wcnt.toNat then s.blk.w0 else 0) ∧
    u.blk.w1 = (if 2 ≤ s.blk.wcnt.toNat then s.blk.w1 else 0) ∧
    u.blk.w2 = (if 3 ≤ s.blk.wcnt.toNat then s.blk.w2 else 0) ∧
    u.blk.wcnt = s.blk.wcnt ∧ u.blk.errIdx = 0 ∧ u.blk.status.extractLsb' 0 3 = 0

/-- R106 on the block: flip one bit of the frame that `FRM.ENC` built and `FRM.DEC` ends with `CHECKSUM` and the index of
the group that holds the bit, and delivers no word. -/
def Obligations.CorruptedFrameIsRejected : Prop :=
  ∀ (s : State) (p : Nat), s.blk.ctrl.getLsbD 1 = false ∨ s.blk.ctrl.extractLsb' 2 2 = s.blk.wcnt →
    p < 24 * s.blk.wcnt.toNat → ∃ t u : State,
      exec .frmEnc s = .next t ∧ exec .frmDec { t with blk := flipBufBit t.blk p } = .next u ∧
      u.blk.status.extractLsb' 0 3 = 1 ∧ u.blk.errIdx.toNat = p / 24 ∧
      u.blk.w0 = 0 ∧ u.blk.w1 = 0 ∧ u.blk.w2 = 0 ∧ u.blk.wcnt = 0

/-- R108: frames of no words. With `WCNT` 0 `FRM.ENC` writes `LEN` and `ECODE` only; with `LEN` 0, and the length check off
or expecting no word, `FRM.DEC` succeeds with no words. -/
def Obligations.ZeroWordFramesSucceed : Prop :=
  (∀ s : State, s.blk.wcnt = 0 →
    exec .frmEnc s = .next { s with blk := { s.blk with len := 0, status := s.blk.status &&& 0xF8 } }) ∧
  ∀ s : State, s.blk.len = 0 → s.blk.ctrl.getLsbD 1 = false ∨ s.blk.ctrl.extractLsb' 2 2 = 0 →
    exec .frmDec s = .next { s with blk := { s.blk with
      w0 := 0, w1 := 0, w2 := 0, wcnt := 0, errIdx := 0, status := s.blk.status &&& 0xF8 } }

/-! ## The converter -/

/-- R8: a machine is built with a parameter set exactly when the set meets the constraints. -/
def Obligations.MachinesAreBuiltFromLegalParametersOnly : Prop :=
  ∀ p : Params, (∃ v : ValidParams, v.params = p) ↔
    ∀ f : Family,
      (∀ ch : Channel, let c := (p.profile f).conv ch
        (0 ≤ c.mul ∧ c.mul < 2 ^ 32) ∧ (1 ≤ c.div ∧ c.div < 2 ^ 32) ∧ (-(2 ^ 31) ≤ c.off ∧ c.off < 2 ^ 31)) ∧
      (let c := (p.profile f).tmp; c.off + (65535 * c.mul / c.div : ℕ) < 2 ^ 31) ∧
      (let c := (p.profile f).co2; 0 ≤ c.off ∧ c.off + (65535 * c.mul / c.div : ℕ) < 2 ^ 32) ∧
      (let c := (p.profile f).hum; 0 ≤ c.off ∧ c.off + (65535 * c.mul / c.div : ℕ) < 2 ^ 32)

/-- R121: `lin` is the offset plus the floor of the exact rational quotient, and the product stays below `2^48`. -/
def Obligations.LinIsOffsetPlusExactFloor : Prop :=
  ∀ (v : ValidParams) (f : Family) (ch : Channel) (raw : ℕ), raw ≤ 65535 →
    let c := (v.params.profile f).conv ch
    raw * c.mul < 2 ^ 48 ∧ lin v.params f ch raw = c.off + ⌊((raw : ℚ) * (c.mul : ℚ)) / (c.div : ℚ)⌋

/-- R122: no result overflows its register, and every channel is non-decreasing; so the register holds the result. -/
def Obligations.ConverterNeverOverflows : Prop :=
  ∀ (v : ValidParams) (f : Family) (raw : ℕ), raw ≤ 65535 →
    (-(2 ^ 31) ≤ lin v.params f .tmp raw ∧ lin v.params f .tmp raw < 2 ^ 31) ∧
    (0 ≤ lin v.params f .co2 raw ∧ lin v.params f .co2 raw < 2 ^ 32) ∧
    (0 ≤ lin v.params f .hum raw ∧ lin v.params f .hum raw < 2 ^ 32) ∧
    (resultBits (lin v.params f .tmp raw)).toInt = lin v.params f .tmp raw ∧
    ((resultBits (lin v.params f .co2 raw)).toNat : ℤ) = lin v.params f .co2 raw ∧
    ((resultBits (lin v.params f .hum raw)).toNat : ℤ) = lin v.params f .hum raw ∧
    ∀ (ch : Channel) (raw' : ℕ), raw ≤ raw' → lin v.params f ch raw ≤ lin v.params f ch raw'

/-- R127: `CNV.CO2 r` writes `CO2` and clears `ECODE`, and changes nothing else. -/
def Obligations.CnvCo2WritesCo2 : Prop :=
  (∀ c r, decode c = .ok (.cnvCo2 r) ↔ r ≠ 3 ∧ c = 0x50 + r.setWidth 8) ∧
  (∀ (s : State) (r : BitVec 2), r ≠ 3 →
    let f := if s.blk.ctrl.getLsbD 0 then Family.combined else Family.legacy
    exec (.cnvCo2 r) s = .next { s with blk := { s.blk with
      co2 := BitVec.ofInt 32 (lin Config.params.params f .co2 (namedWord s.blk r).toNat)
      status := s.blk.status &&& 0xF8 } }) ∧
  (∀ (tmp0 hum0 : Conv) (mask0 : BitVec 16) (f : Family), ∀ raw ≤ 65535,
    lin (referenceParams tmp0 hum0 mask0) f .co2 raw = raw) ∧ linConv profileRef.co2 0x01F4 = 500

/-- R128: `CNV.TMP r` writes `TEMP` in two's complement and clears `ECODE`, and changes nothing else. -/
def Obligations.CnvTmpWritesTemp : Prop :=
  (∀ c r, decode c = .ok (.cnvTmp r) ↔ r ≠ 3 ∧ c = 0x60 + r.setWidth 8) ∧
  (∀ (s : State) (r : BitVec 2), r ≠ 3 →
    let f := if s.blk.ctrl.getLsbD 0 then Family.combined else Family.legacy
    exec (.cnvTmp r) s = .next { s with blk := { s.blk with
      temp := BitVec.ofInt 32 (lin Config.params.params f .tmp (namedWord s.blk r).toNat)
      status := s.blk.status &&& 0xF8 } }) ∧
  BitVec.ofInt 32 (linConv profileRef.tmp 0x0000) = 0xFFFF5038 ∧ linConv profileRef.tmp 0x8000 = 42501 ∧
  linConv profileRef.tmp 16852 = 0 ∧ linConv profileRef.tmp 16851 = -3 ∧ linConv profileRef.tmp 16853 = 3 ∧
  linConv profileRef.tmp 0x6667 = 25002

/-- R129: `CNV.HUM r` writes `HUM` and clears `ECODE`, and changes nothing else. -/
def Obligations.CnvHumWritesHum : Prop :=
  (∀ c r, decode c = .ok (.cnvHum r) ↔ r ≠ 3 ∧ c = 0x70 + r.setWidth 8) ∧
  (∀ (s : State) (r : BitVec 2), r ≠ 3 →
    let f := if s.blk.ctrl.getLsbD 0 then Family.combined else Family.legacy
    exec (.cnvHum r) s = .next { s with blk := { s.blk with
      hum := BitVec.ofInt 32 (lin Config.params.params f .hum (namedWord s.blk r).toNat)
      status := s.blk.status &&& 0xF8 } }) ∧
  linConv profileRef.hum 0x0000 = 0 ∧ linConv profileRef.hum 0xFFFF = 100000 ∧ linConv profileRef.hum 0x8000 = 50000 ∧
  linConv profileRef.hum 0x5EB9 = 37001

/-- R132: `CNV.RDY r` puts in `READY` whether any bit of the family's mask is set in the word and clears `ECODE`, and
changes nothing else. -/
def Obligations.CnvRdyWritesReady : Prop :=
  (∀ c r, decode c = .ok (.cnvRdy r) ↔ r ≠ 3 ∧ c = 0x80 + r.setWidth 8) ∧
  (∀ (s : State) (r : BitVec 2), r ≠ 3 →
    let f := if s.blk.ctrl.getLsbD 0 then Family.combined else Family.legacy
    exec (.cnvRdy r) s = .next { s with blk := { s.blk with
      status := (s.blk.status &&& 0xD8) |||
        (if namedWord s.blk r &&& (Config.params.params.profile f).rdyMask ≠ 0x0000 then 0x20 else 0x00) } }) ∧
  (0x8006#16 &&& profileRef.rdyMask ≠ 0) ∧ (0x8000#16 &&& profileRef.rdyMask = 0)

/-- R133: `CNV.ALL` converts `W0` as CO2, `W1` as temperature, `W2` as humidity and clears `ECODE`, and changes nothing
else. -/
def Obligations.CnvAllConvertsTheThreeWords : Prop :=
  (∀ c, decode c = .ok .cnvAll ↔ c = 0x90) ∧
  (∀ s : State,
    let f := if s.blk.ctrl.getLsbD 0 then Family.combined else Family.legacy
    exec .cnvAll s = .next { s with blk := { s.blk with
      co2 := BitVec.ofInt 32 (lin Config.params.params f .co2 s.blk.w0.toNat)
      temp := BitVec.ofInt 32 (lin Config.params.params f .tmp s.blk.w1.toNat)
      hum := BitVec.ofInt 32 (lin Config.params.params f .hum s.blk.w2.toNat)
      status := s.blk.status &&& 0xF8 } }) ∧
  (∀ (s : State) (is : List Instr), is.Perm [.cnvCo2 0, .cnvTmp 1, .cnvHum 2] →
    ∃ t, exec .cnvAll s = .next t ∧ runCommands is s = some t) ∧
  linConv profileRef.co2 0x01F4 = 500 ∧ linConv profileRef.tmp 0x6667 = 25002 ∧ linConv profileRef.hum 0x5EB9 = 37001

/-- R126, R176: `CNV.ALL` right after a failed `FRM.DEC` succeeds, converts three zero words, and hides the error. -/
def Obligations.ConvertingAfterAFailedDecodeHidesTheError : Prop :=
  ∀ s t : State, exec .frmDec s = .next t → t.blk.status.extractLsb' 0 3 ≠ 0 →
    let p := Config.params.params.profile (if s.blk.ctrl.getLsbD 0 then Family.combined else Family.legacy)
    ∃ u, exec .cnvAll t = .next u ∧ u.blk.status.extractLsb' 0 3 = 0 ∧ u.blk.co2 = BitVec.ofInt 32 p.co2.off ∧
      u.blk.temp = BitVec.ofInt 32 p.tmp.off ∧ u.blk.hum = BitVec.ofInt 32 p.hum.off

/-! ## Control -/

/-- R140: `NOP` changes nothing at all, `ECODE` included. -/
def Obligations.NopChangesNothing : Prop :=
  (∀ c, decode c = .ok .nop ↔ c = 0x00) ∧ ∀ s : State, exec .nop s = .next s

/-! ## The reference profile -/

/-- R123, R131: the constants of the reference profile, whatever family 0's temperature and humidity constants and mask are,
which it leaves open and takes as arguments. -/
def Obligations.ReferenceProfileConstants : Prop :=
  ∀ (tmp0 hum0 : Conv) (mask0 : BitVec 16), let p := referenceParams tmp0 hum0 mask0
    (∀ f, (p.profile f).co2 = ⟨1, 1, 0⟩) ∧
    (p.profile .combined).tmp = ⟨175000, 65535, -45000⟩ ∧ (p.profile .combined).hum = ⟨100000, 65535, 0⟩ ∧
    (p.profile .combined).rdyMask = 0x07FF ∧
    (p.profile .legacy).tmp = tmp0 ∧ (p.profile .legacy).hum = hum0 ∧ (p.profile .legacy).rdyMask = mask0
end

