-- ==== Sys2Proof/Laws/Memory.lean ====
section
/-! SUPPORT. The frame buffer: read after write, the canonical form, and what `MemRead` and `MemWrite` can do
(spec/00_scope.md R9, spec/20_memory.md R43, R45). -/

namespace Sys2Proof.Machine

@[simp] theorem lookup_nil (k : Nat) : Memory.lookup [] k = Memory.blank := rfl

theorem lookup_cons (c : Host.Cell) (m : Memory) (k : Nat) :
    Memory.lookup (c :: m) k = if c.1 = k then c.2 else Memory.lookup m k := rfl

/-! ## One byte -/

theorem lookup_erase (m : Memory) (a k : Nat) :
    Memory.lookup (m.erase a) k = if a = k then Memory.blank else Memory.lookup m k := by
  induction m with
  | nil => simp [Memory.erase]
  | cons c m ih =>
    simp only [Memory.erase] at ih ⊢
    by_cases hc : c.1 = a
    · simp only [List.filter_cons, hc, bne_self_eq_false, Bool.false_eq_true, if_false, ih, lookup_cons]
      split <;> rfl
    · simp only [List.filter_cons, bne_iff_ne, ne_eq, hc, not_false_eq_true, if_true, lookup_cons, ih]
      by_cases hk : c.1 = k
      · have : a ≠ k := fun h => hc (hk.trans h.symm)
        simp [hk, this]
      · simp [hk]

theorem lookup_insert (c : Host.Cell) (m : Memory) (k : Nat) (hm : ∀ d ∈ m, d.1 ≠ c.1) :
    Memory.lookup (m.insert c) k = if c.1 = k then c.2 else Memory.lookup m k := by
  induction m with
  | nil => rfl
  | cons d m ih =>
    have hd : d.1 ≠ c.1 := hm d (by simp)
    simp only [Memory.insert]
    split
    · rfl
    · rw [lookup_cons, ih fun e he => hm e (by simp [he]), lookup_cons]
      by_cases hk : d.1 = k
      · have : c.1 ≠ k := fun e => hd (hk.trans e.symm)
        simp [hk, this]
      · simp [hk]

theorem not_mem_erase (m : Memory) (a : Nat) : ∀ d ∈ m.erase a, d.1 ≠ a := by
  intro d hd
  simpa using (List.mem_filter.mp hd).2

/-- Read after write: the written byte at its index, every other byte as before; of any memory, canonical or not. -/
@[simp] theorem lookup_set (m : Memory) (a k : Nat) (v : BitVec 8) :
    Memory.lookup (m.set a v) k = if a = k then v else Memory.lookup m k := by
  unfold Memory.set
  split
  · rename_i hv
    rw [lookup_erase, hv]
  · rw [lookup_insert _ _ _ (not_mem_erase m a), lookup_erase]
    split <;> rfl

/-! ## The canonical form -/

theorem wf_nil : Memory.wf [] := by simp [Memory.wf]

theorem wf_erase (m : Memory) (a : Nat) (h : m.wf) : (m.erase a).wf :=
  ⟨h.1.filter _, fun c hc => h.2 c (List.mem_filter.mp hc).1⟩

theorem mem_insert (c d : Host.Cell) (m : Memory) : d ∈ m.insert c ↔ d = c ∨ d ∈ m := by
  induction m with
  | nil => simp [Memory.insert]
  | cons e m ih =>
    simp only [Memory.insert]
    split
    · simp
    · simp [ih, or_left_comm]

theorem wf_insert (c : Host.Cell) (m : Memory) (hc : c.1 < bufLen ∧ c.2 ≠ Memory.blank) (hm : ∀ d ∈ m, d.1 ≠ c.1)
    (h : m.wf) : (m.insert c).wf := by
  refine ⟨?_, fun d hd => ?_⟩
  · have hp := h.1
    clear h
    induction m with
    | nil => simp [Memory.insert]
    | cons e m ih =>
      have he := List.pairwise_cons.mp hp
      simp only [Memory.insert]
      split
      · rename_i hlt
        refine List.pairwise_cons.mpr ⟨fun d hd => ?_, hp⟩
        rcases List.mem_cons.mp hd with rfl | hd
        · exact hlt
        · exact Nat.lt_trans hlt (he.1 d hd)
      · rename_i hnlt
        refine List.pairwise_cons.mpr ⟨fun d hd => ?_, ih (fun d hd => hm d (by simp [hd])) he.2⟩
        rcases (mem_insert c d m).mp hd with rfl | hd
        · have := hm e (by simp)
          omega
        · exact he.1 d hd
  · rcases (mem_insert c d m).mp hd with rfl | hd
    · exact hc
    · exact h.2 d hd

theorem wf_set (m : Memory) (a : Nat) (v : BitVec 8) (ha : a < bufLen) (h : m.wf) : (m.set a v).wf := by
  unfold Memory.set
  split
  · exact wf_erase m a h
  · rename_i hv
    exact wf_insert _ _ ⟨ha, hv⟩ (not_mem_erase m a) (wf_erase m a h)

/-! ## `MemRead` and `MemWrite` -/

theorem memByte_ok {m : Memory} {k : Nat} (h : k < bufLen) : memByte m k = .ok (Memory.lookup m k) := by simp [memByte, h]

/-- `MemRead` inside the buffer answers the bytes in order. -/
theorem memRead_ok (m : Memory) (n k : Nat) (h : k + n ≤ bufLen) :
    memRead m k n = .ok ((List.range' k n).map (Memory.lookup m)) := by
  induction n generalizing k with
  | zero => rfl
  | succ n ih =>
    simp [memRead, memByte_ok (m := m) (show k < bufLen by omega), ih (k + 1) (by omega), List.range'_succ]

/-- `MemWrite` inside the buffer answers a memory in which exactly those bytes are written. -/
theorem memWrite_ok (m : Memory) (vs : List (BitVec 8)) (k : Nat) (h : k + vs.length ≤ bufLen) :
    ∃ m', memWrite m k vs = .ok m' ∧
      ∀ j, Memory.lookup m' j = if k ≤ j ∧ j < k + vs.length then vs.getD (j - k) 0 else Memory.lookup m j := by
  induction vs generalizing m k with
  | nil => exact ⟨m, rfl, fun j => by simp [show ¬(k ≤ j ∧ j < k) by omega]⟩
  | cons v vs ih =>
    simp only [List.length_cons] at h
    obtain ⟨m', hm', hl⟩ := ih (m.set k v) (k + 1) (by omega)
    refine ⟨m', by simp [memWrite, memSetByte, show k < bufLen by omega, hm'], fun j => ?_⟩
    rw [hl, lookup_set]
    by_cases hj : k = j
    · subst hj
      rw [if_neg (by omega), if_pos rfl, if_pos ⟨Nat.le_refl k, by rw [List.length_cons]; omega⟩, Nat.sub_self,
        List.getD_cons_zero]
    · by_cases hr : k + 1 ≤ j ∧ j < k + 1 + vs.length
      · have e : j - k = (j - (k + 1)) + 1 := by omega
        rw [if_pos hr, if_pos ⟨by omega, by rw [List.length_cons]; omega⟩, e, List.getD_cons_succ]
      · rw [if_neg hr, if_neg hj, if_neg fun hc => hr ⟨by omega, by have := hc.2; rw [List.length_cons] at this; omega⟩]

/-- `MemWrite` keeps the canonical form. -/
theorem memWrite_wf {m m' : Memory} {k : Nat} {vs : List (BitVec 8)} (h : memWrite m k vs = .ok m') (hm : m.wf) :
    m'.wf := by
  induction vs generalizing m k with
  | nil =>
    cases h
    exact hm
  | cons v vs ih =>
    by_cases hk : k < bufLen
    · simp only [memWrite, memSetByte, if_pos hk] at h
      exact ih h (wf_set m k v hk hm)
    · simp [memWrite, memSetByte, hk] at h

end Sys2Proof.Machine
end

