-- ==== Sys2Proof/Laws/Bus.lean ====
section
/-! SUPPORT. The host's writes reach one register each, and keep the buffer canonical (spec/10_state.md R30, R31). -/

namespace Sys2Proof.Machine

/-- Everything a host write can do: it stores into one read-write register, or it is ignored (R30, R31). -/
theorem writeReg_cases (b : Block) (n : BitVec 8) (v : Nat) :
    (n.toNat = 0x02 ∧ writeReg b n v = { b with ctrl := ctrlWrite v }) ∨
    (n.toNat = 0x03 ∧ writeReg b n v = { b with wcnt := BitVec.ofNat 2 v }) ∨
    (n.toNat = 0x04 ∧ writeReg b n v = { b with len := BitVec.ofNat 4 v }) ∨
    (n.toNat = 0x05 ∧ writeReg b n v = { b with chk := BitVec.ofNat 8 v }) ∨
    (n.toNat = 0x08 ∧ writeReg b n v = { b with w0 := BitVec.ofNat 16 v }) ∨
    (n.toNat = 0x09 ∧ writeReg b n v = { b with w1 := BitVec.ofNat 16 v }) ∨
    (n.toNat = 0x0A ∧ writeReg b n v = { b with w2 := BitVec.ofNat 16 v }) ∨
    (0x10 ≤ n.toNat ∧ n.toNat < 0x19 ∧
      writeReg b n v = { b with buf := b.buf.set (n.toNat - 0x10) (BitVec.ofNat 8 v) }) ∨
    (n.toNat ∉ [0x02, 0x03, 0x04, 0x05, 0x08, 0x09, 0x0A] ∧ ¬(0x10 ≤ n.toNat ∧ n.toNat < 0x19) ∧
      writeReg b n v = b) := by
  by_cases hb : 0x10 ≤ n.toNat ∧ n.toNat < 0x19
  · have hw : writeReg b n v = { b with buf := b.buf.set (n.toNat - 0x10) (BitVec.ofNat 8 v) } := by
      unfold writeReg
      split <;> first | omega | rw [if_pos (by simp only [bufLen]; omega)]
    exact .inr (.inr (.inr (.inr (.inr (.inr (.inr (.inl ⟨hb.1, hb.2, hw⟩)))))))
  · by_cases hr : n.toNat ∈ [0x02, 0x03, 0x04, 0x05, 0x08, 0x09, 0x0A]
    · have hr' := hr
      simp only [List.mem_cons, List.not_mem_nil, or_false] at hr'
      rcases hr' with h | h | h | h | h | h | h <;> simp [writeReg, h]
    · have hw : writeReg b n v = b := by
        simp only [List.mem_cons, List.not_mem_nil, or_false, not_or] at hr
        unfold writeReg
        split <;> first | omega | rw [if_neg (by simp only [bufLen]; omega)]
      exact .inr (.inr (.inr (.inr (.inr (.inr (.inr (.inr ⟨hr, hb, hw⟩)))))))

/-- Registers no host write can change (R30). -/
@[simp] theorem writeReg_status (b : Block) (n : BitVec 8) (v : Nat) : (writeReg b n v).status = b.status := by
  unfold writeReg; split <;> (try split) <;> rfl
@[simp] theorem writeReg_crc (b : Block) (n : BitVec 8) (v : Nat) : (writeReg b n v).crc = b.crc := by
  unfold writeReg; split <;> (try split) <;> rfl
@[simp] theorem writeReg_errIdx (b : Block) (n : BitVec 8) (v : Nat) : (writeReg b n v).errIdx = b.errIdx := by
  unfold writeReg; split <;> (try split) <;> rfl
@[simp] theorem writeReg_co2 (b : Block) (n : BitVec 8) (v : Nat) : (writeReg b n v).co2 = b.co2 := by
  unfold writeReg; split <;> (try split) <;> rfl
@[simp] theorem writeReg_temp (b : Block) (n : BitVec 8) (v : Nat) : (writeReg b n v).temp = b.temp := by
  unfold writeReg; split <;> (try split) <;> rfl
@[simp] theorem writeReg_hum (b : Block) (n : BitVec 8) (v : Nat) : (writeReg b n v).hum = b.hum := by
  unfold writeReg; split <;> (try split) <;> rfl

/-- The register map of the frame buffer: number `0x10 + k` is byte `k` (R32, R40). -/
theorem readReg_buf (b : Block) (k : Nat) (h : k < bufLen) :
    readReg b (BitVec.ofNat 8 (0x10 + k)) = (Memory.lookup b.buf k).toNat := by
  simp only [bufLen] at h
  have : k = 0 ∨ k = 1 ∨ k = 2 ∨ k = 3 ∨ k = 4 ∨ k = 5 ∨ k = 6 ∨ k = 7 ∨ k = 8 := by omega
  rcases this with rfl | rfl | rfl | rfl | rfl | rfl | rfl | rfl | rfl <;> rfl

/-- A host write leaves `CTRL` as it was or with its reserved bits clear (R20). -/
theorem writeReg_ctrl (b : Block) (n : BitVec 8) (v : Nat) :
    (writeReg b n v).ctrl = b.ctrl ∨ (writeReg b n v).ctrl = ctrlWrite v := by
  unfold writeReg; split <;> (try split) <;> first | exact .inl rfl | exact .inr rfl

/-- A host write keeps the canonical form of the buffer. -/
theorem writeReg_wf (b : Block) (n : BitVec 8) (v : Nat) (h : b.buf.wf) : (writeReg b n v).buf.wf := by
  unfold writeReg
  split <;> (try split) <;> first | exact h | exact wf_set _ _ _ (by omega) h

end Sys2Proof.Machine
end

