-- ==== Sys2Proof/Laws/Crc.lean ====
section
/-! SUPPORT. The checksum engine is linear in its register: the lemmas behind every law of `crc8` (spec/40_crc.md). -/

namespace Sys2Proof.Machine

/-- A round without its case split: the polynomial is XORed in when bit 7 is set. -/
theorem crc8Round_eq (c : BitVec 8) : crc8Round c = (c <<< 1) ^^^ (if c.getLsbD 7 then crcPoly else 0) := by
  unfold crc8Round
  split <;> simp

/-- One round is linear. -/
theorem crc8Round_xor (a b : BitVec 8) : crc8Round (a ^^^ b) = crc8Round a ^^^ crc8Round b := by
  have hs : (a ^^^ b) <<< 1 = (a <<< 1) ^^^ (b <<< 1) := BitVec.shiftLeft_xor_distrib a b 1
  simp only [crc8Round_eq, hs, BitVec.getLsbD_xor]
  generalize a <<< 1 = x
  generalize b <<< 1 = y
  cases a.getLsbD 7 <;> cases b.getLsbD 7 <;> simp [BitVec.xor_assoc, BitVec.xor_comm crcPoly]

/-- Any number of rounds is linear. -/
theorem crc8Rounds_xor (n : Nat) (a b : BitVec 8) : crc8Rounds n (a ^^^ b) = crc8Rounds n a ^^^ crc8Rounds n b := by
  induction n generalizing a b with
  | zero => rfl
  | succ n ih => simp only [crc8Rounds, crc8Round_xor, ih]

/-- A byte's step is the rounds of the register and the rounds of the byte. -/
theorem crc8Byte_eq (c d : BitVec 8) : crc8Byte c d = crc8Rounds 8 c ^^^ crc8Rounds 8 d := crc8Rounds_xor 8 c d

/-- The bits of `h : l`. -/
theorem joinBytes_bit (h l : BitVec 8) (i : Nat) :
    (joinBytes h l).getLsbD i = if i < 8 then l.getLsbD i else h.getLsbD (i - 8) := by
  rw [← BitVec.getLsbD_append]
  rfl

/-- The two bytes of a word give the word back. -/
@[simp] theorem joinBytes_hi_lo (w : BitVec 16) : joinBytes (hiByte w) (loByte w) = w := by
  refine BitVec.eq_of_getLsbD_eq fun i hi => ?_
  rw [joinBytes_bit]
  split
  · simp [loByte, *]
  · rw [hiByte, BitVec.getLsbD_extractLsb', Nat.add_sub_cancel' (by omega), decide_eq_true (by omega), Bool.true_and]

@[simp] theorem hiByte_joinBytes (h l : BitVec 8) : hiByte (joinBytes h l) = h := by
  refine BitVec.eq_of_getLsbD_eq fun i hi => ?_
  simp only [hiByte, BitVec.getLsbD_extractLsb', joinBytes_bit, hi]
  simp

@[simp] theorem loByte_joinBytes (h l : BitVec 8) : loByte (joinBytes h l) = l := by
  refine BitVec.eq_of_getLsbD_eq fun i hi => ?_
  simp only [loByte, BitVec.getLsbD_extractLsb', joinBytes_bit, hi]
  simp [hi]

/-- The word of two bytes, checksummed. -/
theorem crc8_joinBytes (h l : BitVec 8) : crc8 (joinBytes h l) = crc8Byte (crc8Byte crcInit h) l := by
  simp [crc8]

end Sys2Proof.Machine
end

