-- ==== Sys2Proof/Laws/Decode.lean ====
section
/-! SUPPORT. What the two formats of the command byte decode to (spec/30_encoding.md R61, R62). -/

namespace Sys2Proof

/-- Format N accepts a byte exactly when its low bits are zero. -/
theorem decodeN_ok_iff (low : BitVec 4) (i j : Instr) : decodeN low i = .ok j ↔ low = 0 ∧ j = i := by
  unfold decodeN
  split <;> rename_i h
  · exact ⟨fun e => ⟨h, by cases e; rfl⟩, fun e => by rw [e.2]⟩
  · exact ⟨nofun, fun e => absurd e.1 h⟩

/-- Format R accepts a byte exactly when bits 3:2 are zero and `r` is not 3. -/
theorem decodeR_ok_iff (low : BitVec 4) (f : WordIdx → Instr) (j : Instr) :
    decodeR low f = .ok j ↔ low.extractLsb' 2 2 = 0 ∧ low.extractLsb' 0 2 ≠ 3 ∧ j = f (low.extractLsb' 0 2) := by
  simp only [decodeR]
  split
  · rename_i h
    exact ⟨nofun, fun e => absurd e.1 h⟩
  · rename_i h
    split
    · rename_i h'
      exact ⟨nofun, fun e => absurd h' e.2.1⟩
    · rename_i h'
      exact ⟨fun e => ⟨by simpa using h, h', by cases e; rfl⟩, fun e => by rw [e.2.2]⟩

end Sys2Proof
end

