-- ==== Sys2Proof/Laws/State.lean ====
section
/-! SUPPORT. What each update of the state leaves in each field: one lemma per field per update, so that no later proof
unfolds a record update. -/

namespace Sys2Proof.Machine

/-! ## `State.withBlk` -/

@[simp] theorem withBlk_blk (s : State) (b : Block) : (s.withBlk b).blk = b := rfl
@[simp] theorem withBlk_pending (s : State) (b : Block) : (s.withBlk b).pending = s.pending := rfl
@[simp] theorem withBlk_returned (s : State) (b : Block) : (s.withBlk b).returned = s.returned := rfl
@[simp] theorem withBlk_withBlk (s : State) (b b' : Block) : (s.withBlk b).withBlk b' = s.withBlk b' := rfl
@[simp] theorem withBlk_self (s : State) : s.withBlk s.blk = s := rfl

/-! ## `succeed` -/

@[simp] theorem succeed_w0 (b : Block) : (succeed b).w0 = b.w0 := rfl
@[simp] theorem succeed_w1 (b : Block) : (succeed b).w1 = b.w1 := rfl
@[simp] theorem succeed_w2 (b : Block) : (succeed b).w2 = b.w2 := rfl
@[simp] theorem succeed_buf (b : Block) : (succeed b).buf = b.buf := rfl
@[simp] theorem succeed_status (b : Block) : (succeed b).status = setEcode b.status .ok := rfl
@[simp] theorem succeed_ctrl (b : Block) : (succeed b).ctrl = b.ctrl := rfl
@[simp] theorem succeed_wcnt (b : Block) : (succeed b).wcnt = b.wcnt := rfl
@[simp] theorem succeed_len (b : Block) : (succeed b).len = b.len := rfl
@[simp] theorem succeed_chk (b : Block) : (succeed b).chk = b.chk := rfl
@[simp] theorem succeed_crc (b : Block) : (succeed b).crc = b.crc := rfl
@[simp] theorem succeed_errIdx (b : Block) : (succeed b).errIdx = b.errIdx := rfl
@[simp] theorem succeed_co2 (b : Block) : (succeed b).co2 = b.co2 := rfl
@[simp] theorem succeed_temp (b : Block) : (succeed b).temp = b.temp := rfl
@[simp] theorem succeed_hum (b : Block) : (succeed b).hum = b.hum := rfl

/-! ## `discardFrame` -/

@[simp] theorem discardFrame_w0 (i : Nat) (b : Block) : (discardFrame i b).w0 = 0 := rfl
@[simp] theorem discardFrame_w1 (i : Nat) (b : Block) : (discardFrame i b).w1 = 0 := rfl
@[simp] theorem discardFrame_w2 (i : Nat) (b : Block) : (discardFrame i b).w2 = 0 := rfl
@[simp] theorem discardFrame_buf (i : Nat) (b : Block) : (discardFrame i b).buf = b.buf := rfl
@[simp] theorem discardFrame_status (i : Nat) (b : Block) : (discardFrame i b).status = b.status := rfl
@[simp] theorem discardFrame_ctrl (i : Nat) (b : Block) : (discardFrame i b).ctrl = b.ctrl := rfl
@[simp] theorem discardFrame_wcnt (i : Nat) (b : Block) : (discardFrame i b).wcnt = 0 := rfl
@[simp] theorem discardFrame_len (i : Nat) (b : Block) : (discardFrame i b).len = b.len := rfl
@[simp] theorem discardFrame_chk (i : Nat) (b : Block) : (discardFrame i b).chk = b.chk := rfl
@[simp] theorem discardFrame_crc (i : Nat) (b : Block) : (discardFrame i b).crc = b.crc := rfl
@[simp] theorem discardFrame_errIdx (i : Nat) (b : Block) : (discardFrame i b).errIdx = BitVec.ofNat 2 i := rfl
@[simp] theorem discardFrame_co2 (i : Nat) (b : Block) : (discardFrame i b).co2 = b.co2 := rfl
@[simp] theorem discardFrame_temp (i : Nat) (b : Block) : (discardFrame i b).temp = b.temp := rfl
@[simp] theorem discardFrame_hum (i : Nat) (b : Block) : (discardFrame i b).hum = b.hum := rfl

/-! ## `deliverFrame` -/

@[simp] theorem deliverFrame_w0 (ws : List (BitVec 16)) (b : Block) : (deliverFrame ws b).w0 = ws.getD 0 0 := rfl
@[simp] theorem deliverFrame_w1 (ws : List (BitVec 16)) (b : Block) : (deliverFrame ws b).w1 = ws.getD 1 0 := rfl
@[simp] theorem deliverFrame_w2 (ws : List (BitVec 16)) (b : Block) : (deliverFrame ws b).w2 = ws.getD 2 0 := rfl
@[simp] theorem deliverFrame_buf (ws : List (BitVec 16)) (b : Block) : (deliverFrame ws b).buf = b.buf := rfl
@[simp] theorem deliverFrame_status (ws : List (BitVec 16)) (b : Block) : (deliverFrame ws b).status = b.status := rfl
@[simp] theorem deliverFrame_ctrl (ws : List (BitVec 16)) (b : Block) : (deliverFrame ws b).ctrl = b.ctrl := rfl
@[simp] theorem deliverFrame_wcnt (ws : List (BitVec 16)) (b : Block) : (deliverFrame ws b).wcnt = BitVec.ofNat 2 ws.length := rfl
@[simp] theorem deliverFrame_len (ws : List (BitVec 16)) (b : Block) : (deliverFrame ws b).len = b.len := rfl
@[simp] theorem deliverFrame_chk (ws : List (BitVec 16)) (b : Block) : (deliverFrame ws b).chk = b.chk := rfl
@[simp] theorem deliverFrame_crc (ws : List (BitVec 16)) (b : Block) : (deliverFrame ws b).crc = b.crc := rfl
@[simp] theorem deliverFrame_errIdx (ws : List (BitVec 16)) (b : Block) : (deliverFrame ws b).errIdx = 0 := rfl
@[simp] theorem deliverFrame_co2 (ws : List (BitVec 16)) (b : Block) : (deliverFrame ws b).co2 = b.co2 := rfl
@[simp] theorem deliverFrame_temp (ws : List (BitVec 16)) (b : Block) : (deliverFrame ws b).temp = b.temp := rfl
@[simp] theorem deliverFrame_hum (ws : List (BitVec 16)) (b : Block) : (deliverFrame ws b).hum = b.hum := rfl

/-! ## `convCo2` -/

@[simp] theorem convCo2_w0 (p : Params) (w : BitVec 16) (b : Block) : (convCo2 p w b).w0 = b.w0 := rfl
@[simp] theorem convCo2_w1 (p : Params) (w : BitVec 16) (b : Block) : (convCo2 p w b).w1 = b.w1 := rfl
@[simp] theorem convCo2_w2 (p : Params) (w : BitVec 16) (b : Block) : (convCo2 p w b).w2 = b.w2 := rfl
@[simp] theorem convCo2_buf (p : Params) (w : BitVec 16) (b : Block) : (convCo2 p w b).buf = b.buf := rfl
@[simp] theorem convCo2_status (p : Params) (w : BitVec 16) (b : Block) : (convCo2 p w b).status = b.status := rfl
@[simp] theorem convCo2_ctrl (p : Params) (w : BitVec 16) (b : Block) : (convCo2 p w b).ctrl = b.ctrl := rfl
@[simp] theorem convCo2_wcnt (p : Params) (w : BitVec 16) (b : Block) : (convCo2 p w b).wcnt = b.wcnt := rfl
@[simp] theorem convCo2_len (p : Params) (w : BitVec 16) (b : Block) : (convCo2 p w b).len = b.len := rfl
@[simp] theorem convCo2_chk (p : Params) (w : BitVec 16) (b : Block) : (convCo2 p w b).chk = b.chk := rfl
@[simp] theorem convCo2_crc (p : Params) (w : BitVec 16) (b : Block) : (convCo2 p w b).crc = b.crc := rfl
@[simp] theorem convCo2_errIdx (p : Params) (w : BitVec 16) (b : Block) : (convCo2 p w b).errIdx = b.errIdx := rfl
@[simp] theorem convCo2_co2 (p : Params) (w : BitVec 16) (b : Block) : (convCo2 p w b).co2 = resultBits (lin p b.family .co2 w.toNat) := rfl
@[simp] theorem convCo2_temp (p : Params) (w : BitVec 16) (b : Block) : (convCo2 p w b).temp = b.temp := rfl
@[simp] theorem convCo2_hum (p : Params) (w : BitVec 16) (b : Block) : (convCo2 p w b).hum = b.hum := rfl

/-! ## `convTmp` -/

@[simp] theorem convTmp_w0 (p : Params) (w : BitVec 16) (b : Block) : (convTmp p w b).w0 = b.w0 := rfl
@[simp] theorem convTmp_w1 (p : Params) (w : BitVec 16) (b : Block) : (convTmp p w b).w1 = b.w1 := rfl
@[simp] theorem convTmp_w2 (p : Params) (w : BitVec 16) (b : Block) : (convTmp p w b).w2 = b.w2 := rfl
@[simp] theorem convTmp_buf (p : Params) (w : BitVec 16) (b : Block) : (convTmp p w b).buf = b.buf := rfl
@[simp] theorem convTmp_status (p : Params) (w : BitVec 16) (b : Block) : (convTmp p w b).status = b.status := rfl
@[simp] theorem convTmp_ctrl (p : Params) (w : BitVec 16) (b : Block) : (convTmp p w b).ctrl = b.ctrl := rfl
@[simp] theorem convTmp_wcnt (p : Params) (w : BitVec 16) (b : Block) : (convTmp p w b).wcnt = b.wcnt := rfl
@[simp] theorem convTmp_len (p : Params) (w : BitVec 16) (b : Block) : (convTmp p w b).len = b.len := rfl
@[simp] theorem convTmp_chk (p : Params) (w : BitVec 16) (b : Block) : (convTmp p w b).chk = b.chk := rfl
@[simp] theorem convTmp_crc (p : Params) (w : BitVec 16) (b : Block) : (convTmp p w b).crc = b.crc := rfl
@[simp] theorem convTmp_errIdx (p : Params) (w : BitVec 16) (b : Block) : (convTmp p w b).errIdx = b.errIdx := rfl
@[simp] theorem convTmp_co2 (p : Params) (w : BitVec 16) (b : Block) : (convTmp p w b).co2 = b.co2 := rfl
@[simp] theorem convTmp_temp (p : Params) (w : BitVec 16) (b : Block) : (convTmp p w b).temp = resultBits (lin p b.family .tmp w.toNat) := rfl
@[simp] theorem convTmp_hum (p : Params) (w : BitVec 16) (b : Block) : (convTmp p w b).hum = b.hum := rfl

/-! ## `convHum` -/

@[simp] theorem convHum_w0 (p : Params) (w : BitVec 16) (b : Block) : (convHum p w b).w0 = b.w0 := rfl
@[simp] theorem convHum_w1 (p : Params) (w : BitVec 16) (b : Block) : (convHum p w b).w1 = b.w1 := rfl
@[simp] theorem convHum_w2 (p : Params) (w : BitVec 16) (b : Block) : (convHum p w b).w2 = b.w2 := rfl
@[simp] theorem convHum_buf (p : Params) (w : BitVec 16) (b : Block) : (convHum p w b).buf = b.buf := rfl
@[simp] theorem convHum_status (p : Params) (w : BitVec 16) (b : Block) : (convHum p w b).status = b.status := rfl
@[simp] theorem convHum_ctrl (p : Params) (w : BitVec 16) (b : Block) : (convHum p w b).ctrl = b.ctrl := rfl
@[simp] theorem convHum_wcnt (p : Params) (w : BitVec 16) (b : Block) : (convHum p w b).wcnt = b.wcnt := rfl
@[simp] theorem convHum_len (p : Params) (w : BitVec 16) (b : Block) : (convHum p w b).len = b.len := rfl
@[simp] theorem convHum_chk (p : Params) (w : BitVec 16) (b : Block) : (convHum p w b).chk = b.chk := rfl
@[simp] theorem convHum_crc (p : Params) (w : BitVec 16) (b : Block) : (convHum p w b).crc = b.crc := rfl
@[simp] theorem convHum_errIdx (p : Params) (w : BitVec 16) (b : Block) : (convHum p w b).errIdx = b.errIdx := rfl
@[simp] theorem convHum_co2 (p : Params) (w : BitVec 16) (b : Block) : (convHum p w b).co2 = b.co2 := rfl
@[simp] theorem convHum_temp (p : Params) (w : BitVec 16) (b : Block) : (convHum p w b).temp = b.temp := rfl
@[simp] theorem convHum_hum (p : Params) (w : BitVec 16) (b : Block) : (convHum p w b).hum = resultBits (lin p b.family .hum w.toNat) := rfl

/-! ## `convRdy` -/

@[simp] theorem convRdy_w0 (p : Params) (w : BitVec 16) (b : Block) : (convRdy p w b).w0 = b.w0 := rfl
@[simp] theorem convRdy_w1 (p : Params) (w : BitVec 16) (b : Block) : (convRdy p w b).w1 = b.w1 := rfl
@[simp] theorem convRdy_w2 (p : Params) (w : BitVec 16) (b : Block) : (convRdy p w b).w2 = b.w2 := rfl
@[simp] theorem convRdy_buf (p : Params) (w : BitVec 16) (b : Block) : (convRdy p w b).buf = b.buf := rfl
@[simp] theorem convRdy_status (p : Params) (w : BitVec 16) (b : Block) : (convRdy p w b).status = setReady b.status (ready p b.family w) := rfl
@[simp] theorem convRdy_ctrl (p : Params) (w : BitVec 16) (b : Block) : (convRdy p w b).ctrl = b.ctrl := rfl
@[simp] theorem convRdy_wcnt (p : Params) (w : BitVec 16) (b : Block) : (convRdy p w b).wcnt = b.wcnt := rfl
@[simp] theorem convRdy_len (p : Params) (w : BitVec 16) (b : Block) : (convRdy p w b).len = b.len := rfl
@[simp] theorem convRdy_chk (p : Params) (w : BitVec 16) (b : Block) : (convRdy p w b).chk = b.chk := rfl
@[simp] theorem convRdy_crc (p : Params) (w : BitVec 16) (b : Block) : (convRdy p w b).crc = b.crc := rfl
@[simp] theorem convRdy_errIdx (p : Params) (w : BitVec 16) (b : Block) : (convRdy p w b).errIdx = b.errIdx := rfl
@[simp] theorem convRdy_co2 (p : Params) (w : BitVec 16) (b : Block) : (convRdy p w b).co2 = b.co2 := rfl
@[simp] theorem convRdy_temp (p : Params) (w : BitVec 16) (b : Block) : (convRdy p w b).temp = b.temp := rfl
@[simp] theorem convRdy_hum (p : Params) (w : BitVec 16) (b : Block) : (convRdy p w b).hum = b.hum := rfl

/-! ## `convAll` -/

@[simp] theorem convAll_w0 (p : Params) (b : Block) : (convAll p b).w0 = b.w0 := rfl
@[simp] theorem convAll_w1 (p : Params) (b : Block) : (convAll p b).w1 = b.w1 := rfl
@[simp] theorem convAll_w2 (p : Params) (b : Block) : (convAll p b).w2 = b.w2 := rfl
@[simp] theorem convAll_buf (p : Params) (b : Block) : (convAll p b).buf = b.buf := rfl
@[simp] theorem convAll_status (p : Params) (b : Block) : (convAll p b).status = b.status := rfl
@[simp] theorem convAll_ctrl (p : Params) (b : Block) : (convAll p b).ctrl = b.ctrl := rfl
@[simp] theorem convAll_wcnt (p : Params) (b : Block) : (convAll p b).wcnt = b.wcnt := rfl
@[simp] theorem convAll_len (p : Params) (b : Block) : (convAll p b).len = b.len := rfl
@[simp] theorem convAll_chk (p : Params) (b : Block) : (convAll p b).chk = b.chk := rfl
@[simp] theorem convAll_crc (p : Params) (b : Block) : (convAll p b).crc = b.crc := rfl
@[simp] theorem convAll_errIdx (p : Params) (b : Block) : (convAll p b).errIdx = b.errIdx := rfl
@[simp] theorem convAll_co2 (p : Params) (b : Block) : (convAll p b).co2 = resultBits (lin p b.family .co2 b.w0.toNat) := rfl
@[simp] theorem convAll_temp (p : Params) (b : Block) : (convAll p b).temp = resultBits (lin p b.family .tmp b.w1.toNat) := rfl
@[simp] theorem convAll_hum (p : Params) (b : Block) : (convAll p b).hum = resultBits (lin p b.family .hum b.w2.toNat) := rfl

/-! ## `raise`, once for each error (R154) -/

theorem raise_illegalCommand (b : Block) :
    raise .illegalCommand b = { b with status := setEcode b.status .illegal } := rfl

theorem raise_lengthError (b : Block) :
    raise .lengthError b = { discardFrame 0 b with status := setEcode b.status .length } := rfl

theorem raise_checksumError (i : Nat) (b : Block) :
    raise (.checksumError i) b = { discardFrame i b with status := setEcode b.status .checksum } := rfl

@[simp] theorem raise_buf (e : CommandError) (b : Block) : (raise e b).buf = b.buf := by cases e <;> rfl
@[simp] theorem raise_ctrl (e : CommandError) (b : Block) : (raise e b).ctrl = b.ctrl := by cases e <;> rfl
@[simp] theorem raise_len (e : CommandError) (b : Block) : (raise e b).len = b.len := by cases e <;> rfl
@[simp] theorem raise_chk (e : CommandError) (b : Block) : (raise e b).chk = b.chk := by cases e <;> rfl
@[simp] theorem raise_crc (e : CommandError) (b : Block) : (raise e b).crc = b.crc := by cases e <;> rfl
@[simp] theorem raise_co2 (e : CommandError) (b : Block) : (raise e b).co2 = b.co2 := by cases e <;> rfl
@[simp] theorem raise_temp (e : CommandError) (b : Block) : (raise e b).temp = b.temp := by cases e <;> rfl
@[simp] theorem raise_hum (e : CommandError) (b : Block) : (raise e b).hum = b.hum := by cases e <;> rfl

end Sys2Proof.Machine
end

