-- ==== Sys2Proof/Laws/Frame.lean ====
section
/-! SUPPORT. What the loops of `FRM.ENC` and `FRM.DEC` can do (spec/41_frame.md P-R101, P-R103, P-R104). -/

namespace Sys2Proof.Machine

@[simp] theorem encodeFrame_length (ws : List (BitVec 16)) : (encodeFrame ws).length = 3 * ws.length := by
  induction ws with
  | nil => rfl
  | cons w ws ih => simp [encodeFrame, group, ih]; omega

/-- The loop of `FRM.ENC` inside the buffer: it never faults, writes the frame's bytes from index `3i` and no others, leaves
the last word's checksum in `CRC`, and touches nothing else. -/
theorem encLoop_ok (ws : List (BitVec 16)) (i : Nat) (b : Block) (h : 3 * (i + ws.length) ≤ bufLen) :
    ∃ m, encLoop ws i b = .ok { b with buf := m, crc := (ws.map crc8).getLastD b.crc } ∧
      ∀ j, Memory.lookup m j =
        if 3 * i ≤ j ∧ j < 3 * i + 3 * ws.length then (encodeFrame ws).getD (j - 3 * i) 0 else Memory.lookup b.buf j := by
  induction ws generalizing i b with
  | nil => exact ⟨b.buf, rfl, fun j => by simp [show ¬(3 * i ≤ j ∧ j < 3 * i) by omega]⟩
  | cons w ws ih =>
    simp only [List.length_cons] at h
    obtain ⟨m1, hw, h1⟩ := memWrite_ok b.buf (group w) (3 * i) (by simp [group, bufLen] at h ⊢; omega)
    obtain ⟨m, he, hl⟩ := ih (i + 1) { b with buf := m1, crc := crc8 w } (by omega)
    refine ⟨m, ?_, fun j => ?_⟩
    · simp only [encLoop, hw, he, List.map_cons, List.getLastD_cons]
    · have hg : (group w).length = 3 := rfl
      rw [hl, h1, hg]
      simp only [encodeFrame, List.length_cons]
      by_cases hj : 3 * (i + 1) ≤ j ∧ j < 3 * (i + 1) + 3 * ws.length
      · rw [if_pos hj, if_pos (by omega), List.getD_eq_getElem?_getD, List.getD_eq_getElem?_getD,
          List.getElem?_append_right (by rw [hg]; omega), hg]
        congr 2
      · rw [if_neg hj]
        by_cases hk : 3 * i ≤ j ∧ j < 3 * i + 3
        · rw [if_pos hk, if_pos (by omega), List.getD_eq_getElem?_getD, List.getD_eq_getElem?_getD,
            List.getElem?_append_left (by rw [hg]; omega)]
        · rw [if_neg hk, if_neg (by omega)]

/-- The loop of `FRM.ENC` keeps the canonical form. -/
theorem encLoop_wf {ws : List (BitVec 16)} {i : Nat} {b b' : Block} (h : encLoop ws i b = .ok b') (hb : b.buf.wf) :
    b'.buf.wf := by
  induction ws generalizing i b with
  | nil =>
    cases h
    exact hb
  | cons w ws ih =>
    simp only [encLoop] at h
    split at h
    · cases h
    · rename_i m hm
      exact ih h (memWrite_wf hm hb)

/-- Group `i` of the buffer, when it exists. -/
theorem readGroup_ok (m : Memory) (i : Nat) (h : 3 * i + 3 ≤ bufLen) :
    readGroup m i = .ok (Memory.lookup m (3 * i), Memory.lookup m (3 * i + 1), Memory.lookup m (3 * i + 2)) := by
  simp only [readGroup, memByte_ok (m := m) (show 3 * i < bufLen by omega),
    memByte_ok (m := m) (show 3 * i + 1 < bufLen by omega), memByte_ok (m := m) (show 3 * i + 2 < bufLen by omega)]

/-- The word of group `i` of the buffer. -/
def bufWord (m : Memory) (i : Nat) : BitVec 16 := joinBytes (Memory.lookup m (3 * i)) (Memory.lookup m (3 * i + 1))

/-- The checksum of group `i` of the buffer is right. -/
def bufGood (m : Memory) (i : Nat) : Prop := crc8 (bufWord m i) = Memory.lookup m (3 * i + 2)

/-- Every way the loop of `FRM.DEC` can end inside the buffer. Either every group examined is good, and the loop answers
their words and the checksum of the last one; or group `j` is the first bad one, and it answers `j` and its checksum. -/
theorem decLoop_cases (m : Memory) (n i : Nat) (t : List (BitVec 16)) (c : BitVec 8) (h : 3 * (i + n) ≤ bufLen) :
    ((∀ j, i ≤ j → j < i + n → bufGood m j) ∧
      decLoop m n i t c = .ok (((List.range' i n).map fun j => crc8 (bufWord m j)).getLastD c,
        .good (t ++ (List.range' i n).map (bufWord m)))) ∨
    (∃ j, i ≤ j ∧ j < i + n ∧ ¬bufGood m j ∧ (∀ k, i ≤ k → k < j → bufGood m k) ∧
      decLoop m n i t c = .ok (crc8 (bufWord m j), .bad j)) := by
  induction n generalizing i t c with
  | zero => exact .inl ⟨fun j h1 h2 => by omega, by simp [decLoop]⟩
  | succ n ih =>
    have hr := readGroup_ok m i (by omega)
    by_cases hg : bufGood m i
    · have hd : decLoop m (n + 1) i t c = decLoop m n (i + 1) (t ++ [bufWord m i]) (crc8 (bufWord m i)) := by
        simp only [decLoop, hr]
        exact if_neg (not_not_intro hg)
      rcases ih (i + 1) (t ++ [bufWord m i]) (crc8 (bufWord m i)) (by omega) with ⟨ha, he⟩ | ⟨j, h1, h2, h3, h4, he⟩
      · refine .inl ⟨fun j h1 h2 => ?_, ?_⟩
        · by_cases hj : j = i
          · exact hj ▸ hg
          · exact ha j (by omega) (by omega)
        · rw [hd, he]
          rw [List.range'_succ, List.map_cons, List.map_cons, List.getLastD_cons, List.append_assoc]
          rfl
      · refine .inr ⟨j, by omega, by omega, h3, fun k hk1 hk2 => ?_, hd.trans he⟩
        by_cases hk : k = i
        · exact hk ▸ hg
        · exact h4 k (by omega) hk2
    · refine .inr ⟨i, Nat.le_refl i, by omega, hg, fun k h1 h2 => by omega, ?_⟩
      simp only [decLoop, hr]
      exact if_pos hg

/-- The length test as a proposition. -/
theorem badFrameLength_iff (L : Nat) (expect : Option Nat) :
    badFrameLength L expect = true ↔ 9 < L ∨ L % 3 ≠ 0 ∨ ∃ n, expect = some n ∧ L ≠ 3 * n := by
  cases expect <;> simp only [badFrameLength, Bool.or_eq_true, decide_eq_true_eq] <;> simp [bufLen, or_assoc]

/-- What passes the length test is a whole number of groups inside the buffer. -/
theorem groups_of_length {L : Nat} {expect : Option Nat} (h : badFrameLength L expect = false) :
    3 * (L / 3) = L ∧ 3 * (0 + L / 3) ≤ bufLen := by
  have h1 : ¬(9 < L ∨ L % 3 ≠ 0 ∨ ∃ n, expect = some n ∧ L ≠ 3 * n) := by
    rw [← badFrameLength_iff, h]
    simp
  have h2 : L ≤ 9 := Nat.not_lt.mp fun hc => h1 (.inl hc)
  have h3 : L % 3 = 0 := Classical.not_not.mp fun hc => h1 (.inr (.inl hc))
  constructor
  · omega
  · simp only [bufLen]
    omega

/-- Every way `FRM.DEC` can end, and that it always ends: a bad length, the first bad group, or all words. -/
theorem frmDec_cases (b : Block) :
    (badFrameLength b.len.toNat b.expected = true ∧ frmDec b = .ok (raise .lengthError b)) ∨
    (badFrameLength b.len.toNat b.expected = false ∧ ∃ j, j < b.len.toNat / 3 ∧ ¬bufGood b.buf j ∧
      (∀ k < j, bufGood b.buf k) ∧
      frmDec b = .ok (raise (.checksumError j) { b with crc := crc8 (bufWord b.buf j) })) ∨
    (badFrameLength b.len.toNat b.expected = false ∧ (∀ j < b.len.toNat / 3, bufGood b.buf j) ∧
      frmDec b = .ok (succeed (deliverFrame ((List.range (b.len.toNat / 3)).map (bufWord b.buf))
        { b with crc := ((List.range (b.len.toNat / 3)).map fun j => crc8 (bufWord b.buf j)).getLastD b.crc }))) := by
  cases hL : badFrameLength b.len.toNat b.expected with
  | true => exact .inl ⟨rfl, by simp [frmDec, hL]⟩
  | false =>
    rcases decLoop_cases b.buf (b.len.toNat / 3) 0 [] b.crc (groups_of_length hL).2 with ⟨ha, he⟩ | ⟨j, -, h2, h3, h4, he⟩
    · refine .inr (.inr ⟨rfl, fun j hj => ha j (Nat.zero_le j) (by omega), ?_⟩)
      simp [frmDec, hL, he, List.range_eq_range']
    · refine .inr (.inl ⟨rfl, j, by omega, h3, fun k hk => h4 k (Nat.zero_le k) hk, ?_⟩)
      simp [frmDec, hL, he]

/-- `FRM.ENC` always ends, this is all it writes, and it keeps the canonical form. -/
theorem frmEnc_ok (b : Block) :
    ∃ m, frmEnc b = .ok (succeed { b with
        buf := m, crc := (b.frameWords.map crc8).getLastD b.crc, len := BitVec.ofNat 4 (3 * b.wcnt.toNat) }) ∧
      (b.buf.wf → m.wf) ∧
      ∀ j, Memory.lookup m j =
        if j < 3 * b.wcnt.toNat then (encodeFrame b.frameWords).getD j 0 else Memory.lookup b.buf j := by
  have hn : b.wcnt.toNat < 4 := b.wcnt.isLt
  have hlen : b.frameWords.length = b.wcnt.toNat := by
    simp only [Block.frameWords, Block.words, List.length_take, List.length_cons, List.length_nil]
    omega
  obtain ⟨m, he, hl⟩ := encLoop_ok b.frameWords 0 b (by rw [hlen]; simp only [bufLen]; omega)
  refine ⟨m, by simp [frmEnc, he], fun hb => encLoop_wf he hb, fun j => ?_⟩
  simpa [hlen] using hl j

end Sys2Proof.Machine
end

