-- ==== Sys2Proof/Laws/Step.lean ====
section
/-! SUPPORT. What a step and the operations that end a command can answer (spec/43_control.md R145, R146). -/

namespace Sys2Proof.Machine

/-! ## Ending a command -/

/-- A command that makes no buffer access ends in the block it computes. -/
@[simp] theorem completes_eq (s : State) (b : Block) : completes s b = .next (s.withBlk b) := rfl

@[simp] theorem completesOrFaults_ok (s : State) (b : Block) : completesOrFaults s (.ok b) = .next (s.withBlk b) := rfl

/-- A format-R command runs on the word its field names. -/
theorem onWord_named (s : State) (f : BitVec 16 → Block → Block) :
    onWord 0 s f = .next (s.withBlk (f s.blk.w0 s.blk)) ∧
    onWord 1 s f = .next (s.withBlk (f s.blk.w1 s.blk)) ∧
    onWord 2 s f = .next (s.withBlk (f s.blk.w2 s.blk)) := ⟨rfl, rfl, rfl⟩

/-- With field 3 it raises `IllegalCommand`. -/
theorem onWord_three (s : State) (f : BitVec 16 → Block → Block) :
    onWord 3 s f = .next (s.withBlk (raise .illegalCommand s.blk)) := rfl

/-- The four values of a word-register field. -/
theorem wordIdx_cases (r : BitVec 2) : r = 0 ∨ r = 1 ∨ r = 2 ∨ r = 3 := by revert r; decide

/-! ## What each command is, unfolded once -/

theorem exec_nop (s : State) : exec .nop s = .next s := rfl
theorem exec_crcCalc (r : BitVec 2) (s : State) :
    exec (.crcCalc r) s = onWord r s fun w b => succeed { b with crc := crc8 w } := rfl
theorem exec_crcVrfy (r : BitVec 2) (s : State) :
    exec (.crcVrfy r) s =
      onWord r s fun w b => succeed { b with crc := crc8 w, status := setMatch b.status (crc8Ok w b.chk) } := rfl
theorem exec_frmEnc (s : State) : exec .frmEnc s = completesOrFaults s (frmEnc s.blk) := rfl
theorem exec_frmDec (s : State) : exec .frmDec s = completesOrFaults s (frmDec s.blk) := rfl
theorem exec_cnvCo2 (r : BitVec 2) (s : State) :
    exec (.cnvCo2 r) s = onWord r s fun w b => succeed (convCo2 Config.params.params w b) := rfl
theorem exec_cnvTmp (r : BitVec 2) (s : State) :
    exec (.cnvTmp r) s = onWord r s fun w b => succeed (convTmp Config.params.params w b) := rfl
theorem exec_cnvHum (r : BitVec 2) (s : State) :
    exec (.cnvHum r) s = onWord r s fun w b => succeed (convHum Config.params.params w b) := rfl
theorem exec_cnvRdy (r : BitVec 2) (s : State) :
    exec (.cnvRdy r) s = onWord r s fun w b => succeed (convRdy Config.params.params w b) := rfl
theorem exec_cnvAll (s : State) :
    exec .cnvAll s = .next (s.withBlk (succeed (convAll Config.params.params s.blk))) := rfl
theorem exec_clr (s : State) : exec .clr s = .next (s.withBlk Block.reset) := rfl

/-! ## A step -/

theorem step_idle {s : State} (h : s.pending = []) : step s = .next s := by simp [step, idle, h]

theorem step_serve {s : State} {a : HostAction} {rest : List HostAction} (h : s.pending = a :: rest) :
    step s = serve a { s with pending := rest } := by simp [step, h]

@[simp] theorem serve_read (n : BitVec 8) (s : State) :
    serve (.read n) s = .next { s with returned := readReg s.blk n :: s.returned } := rfl

@[simp] theorem serve_reset (s : State) : serve .reset s = .next (s.withBlk Block.reset) := rfl

theorem serve_command (v : Nat) (s : State) : serve (.write cmdReg v) s = command (commandByte v) s := by
  simp [serve]

theorem serve_write {n : BitVec 8} (h : n ≠ cmdReg) (v : Nat) (s : State) :
    serve (.write n v) s = .next (s.withBlk (writeReg s.blk n v)) := by
  simp [serve, h, hostWrite]

theorem command_legal {c : BitVec 8} {i : Instr} (h : decode c = .ok i) (s : State) : command c s = exec i s := by
  simp [command, h]

theorem command_illegal {c : BitVec 8} {e : IllegalByte} (h : decode c = .error e) (s : State) :
    command c s = .next (s.withBlk (raise .illegalCommand s.blk)) := by
  simp [command, h, illegalCommand]

/-- All a step can be: idle, a read, a register write, a legal command, an illegal byte, or a reset. -/
theorem step_cases (s : State) :
    (s.pending = [] ∧ step s = .next s) ∨
    (∃ n rest, s.pending = .read n :: rest ∧
      step s = .next { s with pending := rest, returned := readReg s.blk n :: s.returned }) ∨
    (∃ n v rest, s.pending = .write n v :: rest ∧ n ≠ cmdReg ∧
      step s = .next { s with pending := rest, blk := writeReg s.blk n v }) ∨
    (∃ v rest i, s.pending = .write cmdReg v :: rest ∧ decode (commandByte v) = .ok i ∧
      step s = exec i { s with pending := rest }) ∨
    (∃ v rest e, s.pending = .write cmdReg v :: rest ∧ decode (commandByte v) = .error e ∧
      step s = .next { s with pending := rest, blk := raise .illegalCommand s.blk }) ∨
    (∃ rest, s.pending = .reset :: rest ∧ step s = .next { s with pending := rest, blk := Block.reset }) := by
  rcases hp : s.pending with _ | ⟨a, rest⟩
  · exact .inl ⟨rfl, step_idle hp⟩
  rw [step_serve hp]
  cases a with
  | read n => exact .inr (.inl ⟨n, rest, rfl, rfl⟩)
  | reset => exact .inr (.inr (.inr (.inr (.inr ⟨rest, rfl, rfl⟩))))
  | write n v =>
    by_cases hn : n = cmdReg
    · subst hn
      rw [serve_command]
      cases hd : decode (commandByte v) with
      | ok i => exact .inr (.inr (.inr (.inl ⟨v, rest, i, rfl, hd, command_legal hd _⟩)))
      | error e => exact .inr (.inr (.inr (.inr (.inl ⟨v, rest, e, rfl, hd, command_illegal hd _⟩))))
    · exact .inr (.inr (.inl ⟨n, v, rest, rfl, hn, serve_write hn v _⟩))

/-! ## Runs -/

theorem run_zero (s : State) : Host.Core.run Sys2Proof.core 0 s = .next s := rfl

/-- A run of one more step is the step and the run from where it leads. -/
theorem run_succ {s t : State} (h : step s = .next t) (k : Nat) :
    Host.Core.run Sys2Proof.core (k + 1) s = Host.Core.run Sys2Proof.core k t := by
  have h' : Sys2Proof.core.step s = .next t := h
  simp only [Host.Core.run, h']

end Sys2Proof.Machine
end

