-- ==== Sys2Proof/Laws/Exec.lean ====
section
/-! SUPPORT. Everything a command can do to the block, said once: every command completes, and in one of these ways
(spec/30_encoding.md R64, spec/60_exceptions.md R150, spec/43_control.md R146). -/

namespace Sys2Proof.Machine

/-- `ExecResult b i b'`: command `i` takes the block `b` to `b'`. -/
inductive ExecResult (b : Block) : Instr → Block → Prop
  | nop : ExecResult b .nop b
  | clr : ExecResult b .clr Block.reset
  | illegal (i : Instr) (h : i.wellFormed = false) : ExecResult b i (raise .illegalCommand b)
  | crcCalc (r : BitVec 2) (w : BitVec 16) (h : b.word r = some w) :
      ExecResult b (.crcCalc r) (succeed { b with crc := crc8 w })
  | crcVrfy (r : BitVec 2) (w : BitVec 16) (h : b.word r = some w) :
      ExecResult b (.crcVrfy r) (succeed { b with crc := crc8 w, status := setMatch b.status (crc8Ok w b.chk) })
  | cnvCo2 (r : BitVec 2) (w : BitVec 16) (h : b.word r = some w) :
      ExecResult b (.cnvCo2 r) (succeed (convCo2 Config.params.params w b))
  | cnvTmp (r : BitVec 2) (w : BitVec 16) (h : b.word r = some w) :
      ExecResult b (.cnvTmp r) (succeed (convTmp Config.params.params w b))
  | cnvHum (r : BitVec 2) (w : BitVec 16) (h : b.word r = some w) :
      ExecResult b (.cnvHum r) (succeed (convHum Config.params.params w b))
  | cnvRdy (r : BitVec 2) (w : BitVec 16) (h : b.word r = some w) :
      ExecResult b (.cnvRdy r) (succeed (convRdy Config.params.params w b))
  | cnvAll : ExecResult b .cnvAll (succeed (convAll Config.params.params b))
  | frmEnc (m : Memory) (hwf : b.buf.wf → m.wf)
      (hm : ∀ j, Memory.lookup m j =
        if j < 3 * b.wcnt.toNat then (encodeFrame b.frameWords).getD j 0 else Memory.lookup b.buf j) :
      ExecResult b .frmEnc (succeed { b with
        buf := m, crc := (b.frameWords.map crc8).getLastD b.crc, len := BitVec.ofNat 4 (3 * b.wcnt.toNat) })
  | frmDecLength (h : badFrameLength b.len.toNat b.expected = true) :
      ExecResult b .frmDec (raise .lengthError b)
  | frmDecChecksum (h : badFrameLength b.len.toNat b.expected = false) (j : Nat) (hj : j < b.len.toNat / 3)
      (hbad : ¬bufGood b.buf j) (hgood : ∀ k < j, bufGood b.buf k) :
      ExecResult b .frmDec (raise (.checksumError j) { b with crc := crc8 (bufWord b.buf j) })
  | frmDecWords (h : badFrameLength b.len.toNat b.expected = false) (hgood : ∀ j < b.len.toNat / 3, bufGood b.buf j) :
      ExecResult b .frmDec (succeed (deliverFrame ((List.range (b.len.toNat / 3)).map (bufWord b.buf))
        { b with crc := ((List.range (b.len.toNat / 3)).map fun j => crc8 (bufWord b.buf j)).getLastD b.crc }))

/-- A format-R command runs on the word its field names, or raises `IllegalCommand`. -/
theorem onWord_result (r : BitVec 2) (s : State) (f : BitVec 16 → Block → Block) :
    (∃ w, s.blk.word r = some w ∧ onWord r s f = .next (s.withBlk (f w s.blk))) ∨
    (r = 3 ∧ onWord r s f = .next (s.withBlk (raise .illegalCommand s.blk))) := by
  rcases wordIdx_cases r with rfl | rfl | rfl | rfl
  · exact .inl ⟨s.blk.w0, rfl, rfl⟩
  · exact .inl ⟨s.blk.w1, rfl, rfl⟩
  · exact .inl ⟨s.blk.w2, rfl, rfl⟩
  · exact .inr ⟨rfl, rfl⟩

/-- One format-R command: from its named-word case to its result. -/
theorem onWord_exec {i : BitVec 2 → Instr} {f : BitVec 16 → Block → Block} (r : BitVec 2) (s : State)
    (hi : exec (i r) s = onWord r s f) (h3 : (i 3).wellFormed = false)
    (hf : ∀ w, s.blk.word r = some w → ExecResult s.blk (i r) (f w s.blk)) :
    ∃ b', exec (i r) s = .next (s.withBlk b') ∧ ExecResult s.blk (i r) b' := by
  rcases onWord_result r s f with ⟨w, hw, e⟩ | ⟨rfl, e⟩
  · exact ⟨_, hi.trans e, hf w hw⟩
  · exact ⟨_, hi.trans e, .illegal _ h3⟩

/-- Every command completes, changes nothing but the block, and changes it in one of the ways of `ExecResult`. -/
theorem exec_result (i : Instr) (s : State) : ∃ b', exec i s = .next (s.withBlk b') ∧ ExecResult s.blk i b' := by
  cases i with
  | nop => exact ⟨_, rfl, .nop⟩
  | clr => exact ⟨_, rfl, .clr⟩
  | crcCalc r => exact onWord_exec r s (exec_crcCalc r s) rfl fun w h => .crcCalc r w h
  | crcVrfy r => exact onWord_exec r s (exec_crcVrfy r s) rfl fun w h => .crcVrfy r w h
  | cnvCo2 r => exact onWord_exec r s (exec_cnvCo2 r s) rfl fun w h => .cnvCo2 r w h
  | cnvTmp r => exact onWord_exec r s (exec_cnvTmp r s) rfl fun w h => .cnvTmp r w h
  | cnvHum r => exact onWord_exec r s (exec_cnvHum r s) rfl fun w h => .cnvHum r w h
  | cnvRdy r => exact onWord_exec r s (exec_cnvRdy r s) rfl fun w h => .cnvRdy r w h
  | cnvAll => exact ⟨_, exec_cnvAll s, .cnvAll⟩
  | frmEnc =>
    obtain ⟨m, e, hwf, hm⟩ := frmEnc_ok s.blk
    exact ⟨_, by rw [exec_frmEnc, e, completesOrFaults_ok], .frmEnc m hwf hm⟩
  | frmDec =>
    rcases frmDec_cases s.blk with ⟨h, e⟩ | ⟨h, j, hj, hbad, hgood, e⟩ | ⟨h, hgood, e⟩
    · exact ⟨_, by rw [exec_frmDec, e, completesOrFaults_ok], .frmDecLength h⟩
    · exact ⟨_, by rw [exec_frmDec, e, completesOrFaults_ok], .frmDecChecksum h j hj hbad hgood⟩
    · exact ⟨_, by rw [exec_frmDec, e, completesOrFaults_ok], .frmDecWords h hgood⟩

/-- Inversion: where a command led, and how. -/
theorem exec_inversion {i : Instr} {s t : State} (h : exec i s = .next t) :
    t = s.withBlk t.blk ∧ ExecResult s.blk i t.blk := by
  obtain ⟨b', e, hr⟩ := exec_result i s
  rw [e] at h
  cases h
  exact ⟨rfl, hr⟩

end Sys2Proof.Machine
end

