-- ==== Sys2Proof/Laws/Flags.lean ====
section
/-! SUPPORT. Writing one field of `STATUS` writes that field and no other (spec/10_state.md R16, R17). -/

namespace Sys2Proof.Machine

@[simp] theorem statusEcode_setEcode (st : BitVec 8) (e : ErrorCode) : statusEcode (setEcode st e) = e.bits := by
  cases e <;> revert st <;> decide

@[simp] theorem statusMatch_setEcode (st : BitVec 8) (e : ErrorCode) :
    statusMatch (setEcode st e) = statusMatch st := by
  cases e <;> revert st <;> decide

@[simp] theorem statusReady_setEcode (st : BitVec 8) (e : ErrorCode) :
    statusReady (setEcode st e) = statusReady st := by
  cases e <;> revert st <;> decide

@[simp] theorem statusEcode_setMatch (st : BitVec 8) (v : Bool) : statusEcode (setMatch st v) = statusEcode st := by
  cases v <;> revert st <;> decide

@[simp] theorem statusMatch_setMatch (st : BitVec 8) (v : Bool) : statusMatch (setMatch st v) = v := by
  cases v <;> revert st <;> decide

@[simp] theorem statusReady_setMatch (st : BitVec 8) (v : Bool) : statusReady (setMatch st v) = statusReady st := by
  cases v <;> revert st <;> decide

@[simp] theorem statusEcode_setReady (st : BitVec 8) (v : Bool) : statusEcode (setReady st v) = statusEcode st := by
  cases v <;> revert st <;> decide

@[simp] theorem statusMatch_setReady (st : BitVec 8) (v : Bool) : statusMatch (setReady st v) = statusMatch st := by
  cases v <;> revert st <;> decide

@[simp] theorem statusReady_setReady (st : BitVec 8) (v : Bool) : statusReady (setReady st v) = v := by
  cases v <;> revert st <;> decide

/-- The reserved bits of `STATUS` are out of the reach of every field write. -/
@[simp] theorem reserved_setEcode (st : BitVec 8) (e : ErrorCode) : setEcode st e &&& 0xC8#8 = st &&& 0xC8#8 := by
  cases e <;> revert st <;> decide

@[simp] theorem reserved_setMatch (st : BitVec 8) (v : Bool) : setMatch st v &&& 0xC8#8 = st &&& 0xC8#8 := by
  cases v <;> revert st <;> decide

@[simp] theorem reserved_setReady (st : BitVec 8) (v : Bool) : setReady st v &&& 0xC8#8 = st &&& 0xC8#8 := by
  cases v <;> revert st <;> decide

/-- No error code is one of the reserved numbers 4 to 7 (R18). -/
theorem ErrorCode.bits_le (e : ErrorCode) : e.bits.toNat ≤ 3 := by cases e <;> decide

/-- What a write leaves in `CTRL` has its reserved bits clear (R20). -/
theorem ctrlWrite_reserved (v : Nat) : ctrlWrite v &&& 0xF0 = 0 := by
  have h : ∀ n < 16, BitVec.ofNat 8 n &&& 0xF0 = 0 := by decide
  exact h (v % 16) (Nat.mod_lt _ (by decide))

end Sys2Proof.Machine
end

