-- ==== Sys2Proof/Laws/PerInstr.lean ====
section
/-! SUPPORT. Statements about each command as syntax. Family `TableRow`: the command's byte is one of its row of
spec/opcode_table.json. -/

namespace Sys2Proof.Laws.TableRow

/-- The row's `match` and `mask`. -/
def matchMask : Instr → Byte × Byte
  | .nop => (0x00, 0xFF)
  | .crcCalc _ => (0x10, 0xFC)
  | .crcVrfy _ => (0x20, 0xFC)
  | .frmEnc => (0x30, 0xFF)
  | .frmDec => (0x40, 0xFF)
  | .cnvCo2 _ => (0x50, 0xFC)
  | .cnvTmp _ => (0x60, 0xFC)
  | .cnvHum _ => (0x70, 0xFC)
  | .cnvRdy _ => (0x80, 0xFC)
  | .cnvAll => (0x90, 0xFF)
  | .clr => (0xF0, 0xFF)

/-- The row's `legal_bytes`. -/
def legalBytes : Instr → List Byte
  | .nop => [0x00]
  | .crcCalc _ => [0x10, 0x11, 0x12]
  | .crcVrfy _ => [0x20, 0x21, 0x22]
  | .frmEnc => [0x30]
  | .frmDec => [0x40]
  | .cnvCo2 _ => [0x50, 0x51, 0x52]
  | .cnvTmp _ => [0x60, 0x61, 0x62]
  | .cnvHum _ => [0x70, 0x71, 0x72]
  | .cnvRdy _ => [0x80, 0x81, 0x82]
  | .cnvAll => [0x90]
  | .clr => [0xF0]

/-- The command's byte matches its row, and it is a legal byte of the row exactly when the command is well formed. -/
def Statement (i : Instr) : Prop :=
  encode i &&& (matchMask i).2 = (matchMask i).1 ∧ (i.wellFormed = true ↔ encode i ∈ legalBytes i)

theorem nop : Statement .nop := by unfold Statement; decide
theorem crcCalc (r : WordIdx) : Statement (.crcCalc r) := by unfold Statement; revert r; decide
theorem crcVrfy (r : WordIdx) : Statement (.crcVrfy r) := by unfold Statement; revert r; decide
theorem frmEnc : Statement .frmEnc := by unfold Statement; decide
theorem frmDec : Statement .frmDec := by unfold Statement; decide
theorem cnvCo2 (r : WordIdx) : Statement (.cnvCo2 r) := by unfold Statement; revert r; decide
theorem cnvTmp (r : WordIdx) : Statement (.cnvTmp r) := by unfold Statement; revert r; decide
theorem cnvHum (r : WordIdx) : Statement (.cnvHum r) := by unfold Statement; revert r; decide
theorem cnvRdy (r : WordIdx) : Statement (.cnvRdy r) := by unfold Statement; revert r; decide
theorem cnvAll : Statement .cnvAll := by unfold Statement; decide
theorem clr : Statement .clr := by unfold Statement; decide

end Sys2Proof.Laws.TableRow
end

