-- ==== Sys2Proof/Tests/Slice0.lean ====
section
/-! SUPPORT. Small tests against the words and vectors of spec/95_test_vectors.md, and for each statement that has
hypotheses a witness that meets them. Expected values come from the spec; a test on fixed values is a check of the model
and no claim. -/

namespace Sys2Proof.Tests

open Sys2Proof Sys2Proof.Machine

set_option maxRecDepth 20000

/-! ## Builders -/

/-- A buffer that holds `bs` from index `k` up. -/
def bufAt (k : Nat) : List (BitVec 8) → Memory
  | [] => []
  | v :: vs => Memory.set (bufAt (k + 1) vs) k v

/-- The reset block with these words. -/
def withWords (a b c : BitVec 16) : Block := { Block.reset with w0 := a, w1 := b, w2 := c }

/-- The reset block with this buffer and `LEN`. -/
def withBytes (bs : List (BitVec 8)) (n : BitVec 4) : Block := { Block.reset with buf := bufAt 0 bs, len := n }

/-- The block `b`, the host about to make the accesses `as`. -/
def hostDoes (b : Block) (as : List HostAction) : State := { blk := b, pending := as, returned := [] }

/-- The block a command leaves. -/
def after (i : Instr) (b : Block) : Option Block :=
  match exec i (hostDoes b []) with
  | .next t => some t.blk
  | .fault _ => none
  | .refused _ => none

/-- A command answers a next state, and touches nothing but the block. -/
theorem after_next {i : Instr} {b b' : Block} (h : after i b = some b') :
    exec i (hostDoes b []) = .next (hostDoes b' []) := by
  obtain ⟨c, e, -⟩ := exec_result i (hostDoes b [])
  simp only [after, e] at h
  cases h
  exact e

/-- Every command answers a next state. -/
theorem answers (i : Instr) (s : State) : ∃ t, exec i s = .next t :=
  let ⟨_, e, _⟩ := exec_result i s
  ⟨_, e⟩

/-- What a run of as many steps as there are accesses leaves. -/
def runAll (b : Block) (as : List HostAction) : Option State :=
  match Host.Core.run Sys2Proof.core as.length (hostDoes b as) with
  | .next t => some t
  | .fault _ => none
  | .refused _ => none

/-- The byte as an instruction, or none. -/
def decoded (c : BitVec 8) : Option Instr :=
  match decode c with
  | .ok i => some i
  | .error _ => none

/-! ## Well-formedness: field 3 names no word (R62) -/

theorem test_crcCalc_3_refused : (Instr.crcCalc 3).wellFormed = false := by decide
theorem test_crcVrfy_3_refused : (Instr.crcVrfy 3).wellFormed = false := by decide
theorem test_cnvCo2_3_refused : (Instr.cnvCo2 3).wellFormed = false := by decide
theorem test_cnvTmp_3_refused : (Instr.cnvTmp 3).wellFormed = false := by decide
theorem test_cnvHum_3_refused : (Instr.cnvHum 3).wellFormed = false := by decide
theorem test_cnvRdy_3_refused : (Instr.cnvRdy 3).wellFormed = false := by decide

/-! ## Decoding: bytes written out from R61 to R64, as listed in 95_test_vectors.md section 5.1 -/

theorem test_decode_nop : decoded 0b0000_0000 = some .nop := by decide
theorem test_decode_crcCalc : decoded 0b0001_0001 = some (.crcCalc 1) := by decide
theorem test_decode_crcVrfy : decoded 0b0010_0010 = some (.crcVrfy 2) := by decide
theorem test_decode_frmEnc : decoded 0b0011_0000 = some .frmEnc := by decide
theorem test_decode_frmDec : decoded 0b0100_0000 = some .frmDec := by decide
theorem test_decode_cnvCo2 : decoded 0b0101_0010 = some (.cnvCo2 2) := by decide
theorem test_decode_cnvTmp : decoded 0b0110_0000 = some (.cnvTmp 0) := by decide
theorem test_decode_cnvHum : decoded 0b0111_0001 = some (.cnvHum 1) := by decide
theorem test_decode_cnvRdy : decoded 0b1000_0010 = some (.cnvRdy 2) := by decide
theorem test_decode_cnvAll : decoded 0b1001_0000 = some .cnvAll := by decide
theorem test_decode_clr : decoded 0b1111_0000 = some .clr := by decide

theorem test_decode_illegal :
    ([0x01, 0x13, 0x14, 0x18, 0x1C, 0x31, 0x48, 0x53, 0x63, 0x73, 0x83, 0x92, 0xA0, 0xEF, 0xFF] : List (BitVec 8)).all
      (fun c => decoded c == none) = true := by decide

/-- 23 legal bytes (R65). -/
theorem test_decode_count : ((List.range 256).filter fun c => (decoded (BitVec.ofNat 8 c)).isSome).length = 23 := by
  decide

theorem test_decodeTableWord : decodeTableWord 8 0x71 = some (.cnvHum 1) ∧ decodeTableWord 8 0x73 = none := by decide

/-- The word placed by `withFetchWord` is what the next step runs. -/
theorem test_withFetchWord : (match step (State.reset.withFetchWord 8 0x10) with
    | .next t => some (t.blk.crc, t.pending)
    | .fault _ => none
    | .refused _ => none) = some (0x81, []) := by decide

/-! ## The checksum engine (sections 2.1 to 2.4) -/

theorem test_crc8_trace : crc8Byte 0xFF 0xBE = 0x0C ∧ crc8Byte 0x0C 0xEF = 0x92 ∧ crc8Round 0x82 = 0x35 := by decide

theorem test_crc8_words :
    [crc8 0x0000, crc8 0x0001, crc8 0x0031, crc8 0x0100, crc8 0x01F4, crc8 0x1234, crc8 0x8000, crc8 0xFF00, crc8 0xFFFF] =
      [0x81, 0xB0, 0x75, 0x75, 0x33, 0x37, 0xA2, 0x00, 0xAC] := by decide

/-- The catalogue's check value, over "123456789". -/
theorem test_crc8_check :
    ([0x31, 0x32, 0x33, 0x34, 0x35, 0x36, 0x37, 0x38, 0x39] : List (BitVec 8)).foldl crc8Byte 0xFF = 0xF7 := by decide

/-- Rows 0, 8 and F of the table of R87 (section 2.3). -/
theorem test_crc_table :
    (List.range 16).map (fun x => crc8Byte 0 (BitVec.ofNat 8 x)) ++
      (List.range 16).map (fun x => crc8Byte 0 (BitVec.ofNat 8 (0x80 + x))) ++
      (List.range 16).map (fun x => crc8Byte 0 (BitVec.ofNat 8 (0xF0 + x))) =
    [0x00, 0x31, 0x62, 0x53, 0xC4, 0xF5, 0xA6, 0x97, 0xB9, 0x88, 0xDB, 0xEA, 0x7D, 0x4C, 0x1F, 0x2E] ++
      [0x7A, 0x4B, 0x18, 0x29, 0xBE, 0x8F, 0xDC, 0xED, 0xC3, 0xF2, 0xA1, 0x90, 0x07, 0x36, 0x65, 0x54] ++
      [0x82, 0xB3, 0xE0, 0xD1, 0x46, 0x77, 0x24, 0x15, 0x3B, 0x0A, 0x59, 0x68, 0xFF, 0xCE, 0x9D, 0xAC] := by
  decide

/-- `READY` kept, `ECODE` cleared (section 5.3). -/
theorem test_crcCalc :
    (after (.crcCalc 1) { withWords 0 0xBEEF 0 with status := 0x23 }).map (fun b => (b.crc, b.status)) =
      some (0x92, 0x20) := by decide

theorem test_crcVrfy_match :
    (after (.crcVrfy 0) { withWords 0xBEEF 0 0 with chk := 0x92, status := 0x20 }).map (fun b => (b.crc, b.status)) =
      some (0x92, 0x30) := by decide

theorem test_crcVrfy_mismatch :
    (after (.crcVrfy 2) { withWords 0 0 0xBEEF with chk := 0x93, status := 0x10 }).map (fun b => (b.crc, b.status)) =
      some (0x92, 0x00) := by decide

/-! ## The framer and deframer (section 3) -/

/-- The last row of section 3.1: one word framed over an older frame. -/
theorem test_frmEnc :
    (after .frmEnc { withWords 0xBEEF 0x8000 0xFFFF with
        wcnt := 1, buf := bufAt 0 [0x01, 0x90, 0x4C, 0x80, 0x00, 0xA2, 0xFF, 0xFF, 0xAC] }).map
      (fun b => (b.buf, b.len, b.crc)) =
    some (bufAt 0 [0xBE, 0xEF, 0x92, 0x80, 0x00, 0xA2, 0xFF, 0xFF, 0xAC], 3, 0x92) := by decide

theorem test_frmEnc_three :
    (after .frmEnc { withWords 0x01F4 0x6667 0x5EB9 with wcnt := 3 }).map (fun b => (b.buf, b.len, b.crc)) =
    some (bufAt 0 [0x01, 0xF4, 0x33, 0x66, 0x67, 0xA2, 0x5E, 0xB9, 0x3C], 9, 0x3C) := by decide

/-- Section 3.2, word 1 bad and word 2 not examined. -/
theorem test_frmDec_first_bad :
    (after .frmDec (withBytes [0x01, 0xF4, 0x33, 0x66, 0x66, 0xA2, 0x5E, 0xB9, 0x3D] 9)).map
      (fun b => (b.words, b.wcnt, b.errIdx, b.crc, b.status)) = some ([0, 0, 0], 0, 1, 0x93, 1) := by decide

/-- Section 3.3, `CTRL` = `0x06`: one word where one is expected. -/
theorem test_frmDec_expected :
    (after .frmDec { withBytes [0x01, 0xF4, 0x33] 3 with ctrl := 0x06, w1 := 0x2222, w2 := 0x3333 }).map
      (fun b => (b.words, b.wcnt, b.errIdx, b.crc, b.status)) = some ([0x01F4, 0, 0], 1, 0, 0x33, 0) := by decide

/-! ## The converter (section 4); the machine's own parameters are open, so the profiles are given here -/

theorem test_lin_reference :
    linConv profileRef.co2 0x01F4 = 500 ∧ linConv profileRef.tmp 0xFFFF = 130000 ∧ linConv profileRef.tmp 0x41D3 = -3 ∧
    linConv profileRef.hum 0x5EB9 = 37001 := by decide

theorem test_lin_test_profile :
    linConv profileT0.tmp 1 = -3934 ∧ linConv profileT0.tmp 0xFFFF = 4365000 ∧ linConv profileT0.hum 0x01F4 = 976 := by
  decide

theorem test_cnvCo2 : (convCo2 vectorParams 0x5EB9 { Block.reset with ctrl := 1 }).co2 = 24249 := by decide
theorem test_cnvTmp : (convTmp vectorParams 0x41D3 { Block.reset with ctrl := 1 }).temp = 0xFFFFFFFD := by decide
theorem test_cnvTmp_family0 : (convTmp vectorParams 0x0000 Block.reset).temp = 0xFFFFF060 := by decide
theorem test_cnvHum : (convHum vectorParams 0x6667 { Block.reset with ctrl := 1 }).hum = 40001 := by decide
theorem test_cnvRdy :
    (convRdy vectorParams 0x8006 { Block.reset with ctrl := 1 }).status = 0x20 ∧
    (convRdy vectorParams 0x8006 { Block.reset with status := 0x30 }).status = 0x10 := by decide
theorem test_cnvAll :
    (fun b : Block => (b.co2, b.temp, b.hum)) (convAll vectorParams (withWords 0x0190 0x8000 0xFFFF)) =
      (400, 2180533, 127998) := by decide

/-- The vectors' set is the reference profile with the test profile's constants where it leaves family 0 open (R123, R124). -/
theorem test_vectorParams_reference :
    vectorParams = referenceParams profileT0.tmp profileT0.hum profileT0.rdyMask := rfl

/-- The reference profile is legal exactly when the constants it is given for family 0 are (R8, R123). -/
theorem test_referenceParams_ok (t h : Conv) (m : BitVec 16) :
    (referenceParams t h m).ok ↔ t.fitsSigned ∧ h.fitsUnsigned :=
  have co2 : (Conv.mk 1 1 0).fitsUnsigned := by decide
  have combined : profileRef.ok := by decide
  ⟨fun k => k.1.2, fun k => ⟨⟨co2, k⟩, combined⟩⟩

/-- The spec's vector set is a legal one (R124). -/
theorem test_vectorParams_ok : vectorParams.ok := by decide

/-! ## Control (section 5.3) -/

theorem test_nop : after .nop { Block.reset with status := 0x23, errIdx := 1 } =
    some { Block.reset with status := 0x23, errIdx := 1 } := by decide

theorem test_clr : after .clr { withBytes [0x01] 9 with ctrl := 0x0F, status := 0x30, temp := 25002, crc := 0x3C } =
    some Block.reset := by decide

/-! ## Host accesses (section 5.2) -/

theorem test_host_writes :
    (runAll Block.reset [.write 0x03 7, .write 0x04 0x1F, .write 0x02 0xFF, .write 0x05 0x1AB, .write 0x08 0x12345,
        .write 0x10 0x1FF, .write 0x01 0xFF, .write 0x06 0, .write 0x0C 5, .write 0x0B 9, .write 0x19 1]).map (·.blk) =
      some { Block.reset with wcnt := 3, len := 15, ctrl := 0x0F, chk := 0xAB, w0 := 0x2345, buf := [(0, 0xFF)] } := by
  decide

theorem test_host_reads :
    (runAll { Block.reset with status := 0xFF, ctrl := 0xFF, buf := [(8, 0xAC)] }
        [.read 0x00, .read 0x01, .read 0x02, .read 0x0B, .read 0x18, .read 0x19]).map (·.returned) =
      some [0, 0xAC, 0, 0x0F, 0x37, 0] := by decide

/-- An illegal byte sets `ECODE` to 3 and keeps `READY` (section 5.3). -/
theorem test_illegal_byte :
    (runAll { Block.reset with status := 0x20 } [.write 0x00 0x13]).map (·.blk) =
      some { Block.reset with status := 0x23 } := by decide

/-- The records of P1 (R70). -/
theorem test_records :
    (HostAction.write 0x08 0x01F4).record = some "W 08 000001F4" ∧ (HostAction.command .frmEnc).record = some "W 00 00000030" ∧
    (HostAction.read 0x10).record = some "R 10" := by decide

/-! ## Witnesses: states and operands that meet the hypotheses of the statements -/

theorem witness_DecodeInvertsEncode : (Instr.cnvHum 2).wellFormed = true ∧ decode 0x72 = .ok (.cnvHum 2) := ⟨rfl, rfl⟩

/-- The ends of every range of R65, and an access that writes such a byte. -/
theorem witness_IllegalBytesOnlySetEcode :
    (∀ c ∈ ([0xA0, 0xEF, 0x01, 0x0F, 0x31, 0x3F, 0x41, 0x4F, 0x91, 0x9F, 0xF1, 0xFF, 0x13, 0x1F, 0x83, 0x8F] :
        List (BitVec 8)), listedIllegal c) ∧
    (hostDoes Block.reset [.write 0x00 0x13]).pending = .write 0x00 (0x13 : BitVec 8).toNat :: [] ∧ listedIllegal 0x13 := by
  unfold listedIllegal
  exact ⟨by decide, rfl, by decide⟩

theorem witness_StepRunsTheDecodedCommand :
    (hostDoes Block.reset [.write 0x00 0x30, .read 0x04]).pending = .write 0x00 0x30 :: [.read 0x04] ∧
    decode (BitVec.ofNat 8 0x30) = .ok .frmEnc := ⟨rfl, rfl⟩

theorem witness_IdleAndResetSteps :
    State.reset.pending = [] ∧ (hostDoes (withWords 1 2 3) [.reset]).pending = .reset :: [] := ⟨rfl, rfl⟩

/-- Every clause at the ends of its range; and no number other than `CMD` falls under two clauses or none. -/
theorem witness_HostAccessesReachOneRegister :
    (hostDoes Block.reset [.read 0x18]).pending = .read 0x18 :: [] ∧
    reservedReg 0x0B ∧ reservedReg 0x0F ∧ reservedReg 0x19 ∧ reservedReg 0xFF ∧ readOnlyReg 0x01 ∧ readOnlyReg 0x0E ∧
    (∀ n ∈ ([0x01, 0x19, 0x02, 0x03, 0x04, 0x05, 0x08, 0x09, 0x0A, 0x10, 0x18] : List (BitVec 8)),
      (hostDoes Block.reset [.write n 7]).pending = .write n 7 :: []) ∧
    (0x10 = BitVec.ofNat 8 (0x10 + 0) ∧ 0x18 = BitVec.ofNat 8 (0x10 + 8)) ∧
    ∀ n : BitVec 8, n ≠ 0x00 → ((readOnlyReg n ∨ reservedReg n) ↔ storedBits n = none) := by
  unfold reservedReg readOnlyReg
  exact ⟨rfl, by decide, by decide, by decide, by decide, by decide, by decide, fun _ _ => rfl, by decide, by decide⟩

/-- Two states with the same block and the same next access, and different ones after it. -/
theorem witness_StepReadsBlockAndAccessOnly :
    (hostDoes Block.reset [.write 0x08 1]).pending.head? = (hostDoes Block.reset [.write 0x08 1, .reset]).pending.head? ∧
    (∃ t, step (hostDoes Block.reset [.write 0x08 1]) = .next t) ∧
    ∃ t', step (hostDoes Block.reset [.write 0x08 1, .reset]) = .next t' := ⟨rfl, ⟨_, rfl⟩, ⟨_, rfl⟩⟩

theorem witness_AccessesAreServedInOrder : ∃ t, Host.Core.run Sys2Proof.core 2
    { State.reset with pending := [.write 0x03 1, .write 0x00 0x30] } = .next t := ⟨_, rfl⟩

/-- A state at the edges of the invariant, with a step from it. -/
theorem witness_StepKeepsTheInvariant :
    let s := hostDoes { withBytes [0x01, 0, 0, 0, 0, 0, 0, 0, 0xFF] 15 with status := 0x33, ctrl := 0x0F, errIdx := 2 }
      [.write 0x00 0x40]
    s.Inv ∧ ∃ t, step s = .next t :=
  ⟨⟨by decide, by decide, by decide, by decide, by decide⟩, ⟨_, rfl⟩⟩

theorem witness_CanonicalBuffersAreEqualWhenTheyReadAlike :
    Memory.wf [(0, 0x01), (8, 0xFF)] ∧ (bufAt 0 [0x01, 0, 0, 0, 0, 0, 0, 0, 0xFF]).wf ∧
    ∀ k, Memory.lookup [(0, 0x01), (8, 0xFF)] k = Memory.lookup (bufAt 0 [0x01, 0, 0, 0, 0, 0, 0, 0, 0xFF]) k :=
  ⟨by decide, by decide, fun _ => rfl⟩

/-- A command for each clause of `OnlyListedCommandsWriteARegister`; also for `OnlyFrmDecFails` and
`CtrlIsWrittenByHostAndClrOnly`. -/
theorem witness_commands_answer :
    ∀ i ∈ [Instr.nop, .crcCalc 0, .crcVrfy 1, .frmEnc, .frmDec, .cnvCo2 2, .cnvTmp 0, .cnvHum 1, .cnvRdy 2, .cnvAll, .clr],
      i.wellFormed = true ∧ ∃ t, exec i (hostDoes (withWords 1 2 3) []) = .next t := by
  intro i hi
  simp only [List.mem_cons, List.not_mem_nil, or_false] at hi
  rcases hi with rfl | rfl | rfl | rfl | rfl | rfl | rfl | rfl | rfl | rfl | rfl <;> exact ⟨rfl, answers _ _⟩

/-- A failed `FRM.DEC`, a read and a register write between conversions. -/
theorem witness_ResultsSurviveOtherAccesses :
    let s := hostDoes { withBytes [0x01] 1 with co2 := 500 } [.write 0x00 0x40, .read 0x0C, .write 0x10 5]
    (∀ a ∈ s.pending, a ≠ .reset ∧ ∀ v i, a = .write 0x00 v → decode (BitVec.ofNat 8 v) = .ok i → keepsResults i) ∧
    ∃ t, Host.Core.run Sys2Proof.core 3 s = .next t := by
  refine ⟨fun a ha => ?_, _, rfl⟩
  rcases List.mem_cons.mp ha with rfl | ha
  · refine ⟨nofun, fun v i hv hi => ?_⟩
    cases hv
    cases hi
    exact True.intro
  rcases List.mem_cons.mp ha with rfl | ha
  · exact ⟨nofun, nofun⟩
  rcases List.mem_cons.mp ha with rfl | ha
  · exact ⟨nofun, fun v i hv => by cases hv⟩
  · cases ha

theorem witness_OnlyTheConverterReadsFam :
    ¬readsFamily .frmDec ∧
    (0x07 : BitVec 8).extractLsb' 1 3 = (hostDoes { Block.reset with ctrl := 0x06 } []).blk.ctrl.extractLsb' 1 3 :=
  ⟨id, by decide⟩

theorem witness_CtrlIsWrittenByHostAndClrOnly :
    (hostDoes Block.reset [.write 0x02 0xFF]).pending = .write 0x02 0xFF :: [] := rfl

theorem witness_FieldThreeIsIllegal :
    ∀ i ∈ [Instr.crcCalc 3, .crcVrfy 3, .cnvCo2 3, .cnvTmp 3, .cnvHum 3, .cnvRdy 3], i.wellFormed = false := by decide

theorem witness_CrcDetectsOneAndTwoBitFlips : 0 < 24 ∧ 23 < 24 ∧ 0 ≠ 23 := by decide

/-- For `CrcCalcWritesTheChecksum`, `CrcVrfyWritesMatch`, `CnvCo2WritesCo2`, `CnvTmpWritesTemp`, `CnvHumWritesHum` and
`CnvRdyWritesReady`: the fields that name a word. -/
theorem witness_word_fields : (0 : BitVec 2) ≠ 3 ∧ (1 : BitVec 2) ≠ 3 ∧ (2 : BitVec 2) ≠ 3 := by decide

theorem witness_EncodedFrameLayout :
    [0x01F4#16, 0x6667, 0x5EB9].length ≤ 3 ∧ [0x01F4#16, 0x6667, 0x5EB9][2]? = some 0x5EB9 := ⟨by decide, rfl⟩

theorem witness_FrameRoundTrip :
    ([] : List (BitVec 16)).length ≤ 3 ∧ [0x01F4#16, 0x6667, 0x5EB9].length ≤ 3 ∧
    decodeFrame [0xBE, 0xEF, 0x92] none = .words [0xBEEF] := by decide

theorem witness_SingleBitFlipIsReported :
    1 ≤ [0xBEEF#16].length ∧ [0xBEEF#16].length ≤ 3 ∧ 0 < 24 * [0xBEEF#16].length ∧
    [0x01F4#16, 0x6667, 0x5EB9].length ≤ 3 ∧ 71 < 24 * [0x01F4#16, 0x6667, 0x5EB9].length := by decide

/-- Each of the three length conditions, at its edge, and a length that meets none. -/
theorem witness_FrmDecLengthError :
    lengthBad (withBytes [] 10) ∧ lengthBad (withBytes [] 8) ∧ lengthBad { withBytes [] 6 with ctrl := 0x0E } ∧
    ¬lengthBad { withBytes [] 9 with ctrl := 0x0E } ∧
    ∃ t, exec .frmDec (hostDoes (withBytes [] 4) []) = .next t ∧ t.blk.status.extractLsb' 0 3 = 2 := by
  unfold lengthBad
  exact ⟨by decide, by decide, by decide, by decide,
    _, after_next (b' := { withBytes [] 4 with status := 0x02 }) (by decide), by decide⟩

/-- The first and the last group as the first bad one. -/
theorem witness_FrmDecChecksumError :
    (let b := withBytes [0xBE, 0xEF, 0x93] 3
     ¬lengthBad b ∧ 0 < b.len.toNat / 3 ∧ ¬groupMatches b 0) ∧
    let b := withBytes [0x01, 0xF4, 0x33, 0x66, 0x67, 0xA2, 0x5E, 0xB9, 0x3D] 9
    ¬lengthBad b ∧ 2 < b.len.toNat / 3 ∧ ¬groupMatches b 2 ∧ ∀ j < 2, groupMatches b j := by
  unfold lengthBad groupMatches
  decide

/-- Also for `ConvertingAfterAFailedDecodeHidesTheError`. -/
theorem witness_FailedFrmDecDiscardsTheFrame :
    ∃ t, exec .frmDec (hostDoes (withBytes [0xBE, 0xEF, 0x93] 3) []) = .next t ∧ t.blk.status.extractLsb' 0 3 ≠ 0 :=
  ⟨_, after_next (b' := { withBytes [0xBE, 0xEF, 0x93] 3 with crc := 0x92, status := 0x01 }) (by decide),
    by decide⟩

/-- Two states that differ in a byte above `LEN`, in a word and in `FAM`. -/
theorem witness_FrmDecReadsOnlyItsFrame :
    let s := hostDoes (withBytes [0xBE, 0xEF, 0x92, 0x55] 3) []
    let s' := hostDoes { withBytes [0xBE, 0xEF, 0x92, 0xAA] 3 with w1 := 7, ctrl := 0x01 } []
    s'.blk.len = s.blk.len ∧ s'.blk.ctrl.extractLsb' 1 3 = s.blk.ctrl.extractLsb' 1 3 ∧
    (∀ k < s.blk.len.toNat, Memory.lookup s'.blk.buf k = Memory.lookup s.blk.buf k) ∧
    (∃ t, exec .frmDec s = .next t) ∧ ∃ t', exec .frmDec s' = .next t' :=
  ⟨by decide, by decide, by decide, answers _ _, answers _ _⟩

/-- Two states that differ in the words from `WCNT` up. -/
theorem witness_FrmEncReadsOnlyItsWords :
    let s := hostDoes { withWords 0xBEEF 1 2 with wcnt := 1 } []
    let s' := hostDoes { withWords 0xBEEF 3 4 with wcnt := 1, ctrl := 0x0F } []
    s'.blk.wcnt = s.blk.wcnt ∧ (1 ≤ s.blk.wcnt.toNat → s'.blk.w0 = s.blk.w0) ∧
    (2 ≤ s.blk.wcnt.toNat → s'.blk.w1 = s.blk.w1) ∧ (3 ≤ s.blk.wcnt.toNat → s'.blk.w2 = s.blk.w2) ∧
    (∃ t, exec .frmEnc s = .next t) ∧ ∃ t', exec .frmEnc s' = .next t' :=
  ⟨by decide, by decide, by decide, by decide, answers _ _, answers _ _⟩

/-- The length check off, and on with the right count. -/
theorem witness_DecodeAfterEncodeRestoresTheWords :
    (hostDoes { withWords 1 2 3 with wcnt := 3 } []).blk.ctrl.getLsbD 1 = false ∧
    (hostDoes { withWords 1 2 3 with wcnt := 3, ctrl := 0x0E } []).blk.ctrl.extractLsb' 2 2 =
      (hostDoes { withWords 1 2 3 with wcnt := 3, ctrl := 0x0E } []).blk.wcnt := by decide

theorem witness_CorruptedFrameIsRejected :
    (hostDoes { withWords 1 2 3 with wcnt := 3 } []).blk.ctrl.getLsbD 1 = false ∧
    71 < 24 * (hostDoes { withWords 1 2 3 with wcnt := 3 } []).blk.wcnt.toNat := by decide

theorem witness_ZeroWordFramesSucceed :
    (hostDoes (withWords 1 2 3) []).blk.wcnt = 0 ∧
    (hostDoes { withWords 1 2 3 with ctrl := 0x02 } []).blk.len = 0 ∧
    (hostDoes { withWords 1 2 3 with ctrl := 0x02 } []).blk.ctrl.extractLsb' 2 2 = 0 ∧
    (hostDoes { withWords 1 2 3 with ctrl := 0x0C } []).blk.ctrl.getLsbD 1 = false := by decide

/-- The ends of the raw range; legal parameter sets exist, the spec's own among them. -/
theorem witness_LinIsOffsetPlusExactFloor : 0 ≤ 65535 ∧ 65535 ≤ 65535 ∧ ∃ v : ValidParams, v.params = vectorParams :=
  ⟨by decide, by decide, ⟨vectorParams, test_vectorParams_ok⟩, rfl⟩

theorem witness_ConverterNeverOverflows :
    65534 ≤ 65535 ∧ 65534 ≤ 65535 ∧ ∃ v : ValidParams, v.params = vectorParams :=
  ⟨by decide, by decide, ⟨vectorParams, test_vectorParams_ok⟩, rfl⟩

theorem witness_CnvAllConvertsTheThreeWords :
    [Instr.cnvHum 2, .cnvCo2 0, .cnvTmp 1].Perm [.cnvCo2 0, .cnvTmp 1, .cnvHum 2] := by decide

end Sys2Proof.Tests
end

/-! PROOFS. The parameter set of the machine (spec/00_scope.md R8). -/

namespace Sys2Proof

/-- `MUL` is a natural number in the model, so R8's lower bound on it holds of every triple. -/
theorem Conv.inRange_iff (c : Conv) :
    c.inRange ↔ (0 ≤ c.mul ∧ c.mul < 2 ^ 32) ∧ (1 ≤ c.div ∧ c.div < 2 ^ 32) ∧ (-(2 ^ 31) ≤ c.off ∧ c.off < 2 ^ 31) := by
  simp only [Conv.inRange, Nat.zero_le, true_and, and_assoc]

/-- A statement about every channel is one about each of the three. -/
theorem Channel.forall_iff {P : Channel → Prop} : (∀ ch, P ch) ↔ P .co2 ∧ P .tmp ∧ P .hum :=
  ⟨fun h => ⟨h .co2, h .tmp, h .hum⟩, fun ⟨hco2, htmp, hhum⟩ ch => by cases ch <;> assumption⟩

/-- A statement about every family is one about each of the two. -/
theorem Family.forall_iff {P : Family → Prop} : (∀ f, P f) ↔ P .legacy ∧ P .combined :=
  ⟨fun h => ⟨h .legacy, h .combined⟩, fun ⟨hlegacy, hcombined⟩ f => by cases f <;> assumption⟩

/-- R8 for one family, with the ranges asked of all channels apart from the bounds on the results. -/
theorem Profile.ok_iff (p : Profile) :
    p.ok ↔ (∀ ch, (p.conv ch).inRange) ∧ p.tmp.greatest < 2 ^ 31 ∧
      (0 ≤ p.co2.off ∧ p.co2.greatest < 2 ^ 32) ∧ (0 ≤ p.hum.off ∧ p.hum.greatest < 2 ^ 32) := by
  rw [Channel.forall_iff]
  constructor
  · rintro ⟨⟨rco2, bco2⟩, ⟨rtmp, btmp⟩, rhum, bhum⟩
    exact ⟨⟨rco2, rtmp, rhum⟩, btmp, bco2, bhum⟩
  · rintro ⟨⟨rco2, rtmp, rhum⟩, btmp, bco2, bhum⟩
    exact ⟨⟨rco2, bco2⟩, ⟨rtmp, btmp⟩, rhum, bhum⟩

/-- R8 for a parameter set is R8 for each family's constants. -/
theorem Params.ok_iff_forall_profile (p : Params) : p.ok ↔ ∀ f, (p.profile f).ok :=
  (Family.forall_iff (P := fun f => (p.profile f).ok)).symm

/-- A machine can be built with a set exactly when the set meets R8. -/
theorem ValidParams.exists_params_eq_iff (p : Params) : (∃ v : ValidParams, v.params = p) ↔ p.ok :=
  ⟨fun ⟨v, hv⟩ => hv ▸ v.ok, fun h => ⟨⟨p, h⟩, rfl⟩⟩

/-- Settles O49: a machine's set is one that meets R8, and R8 is asked family by family and channel by channel. -/
theorem machinesAreBuiltFromLegalParametersOnly : Obligations.MachinesAreBuiltFromLegalParametersOnly := by
  intro p
  rw [ValidParams.exists_params_eq_iff, Params.ok_iff_forall_profile]
  refine forall_congr' fun f => ?_
  rw [Profile.ok_iff]
  exact and_congr_left' (forall_congr' fun ch => Conv.inRange_iff _)

end Sys2Proof

/-! PROOFS. The invariant: reset meets it and every step keeps it (spec/10_state.md R17, R18, R20, R27, R34). -/

namespace Sys2Proof.Machine

theorem inv_reset : Block.reset.Inv where
  bufCanonical   := wf_nil
  statusReserved := by decide
  ecodeLegal     := by decide
  ctrlReserved   := by decide
  errIdxLegal    := by decide

namespace Block.Inv

variable {b : Block}

/-- A write of `ECODE` keeps the invariant: the code written is one of the four, and the reserved bits stay. -/
theorem withEcode (h : b.Inv) (e : ErrorCode) : Block.Inv { b with status := setEcode b.status e } :=
  { h with
    statusReserved := (reserved_setEcode b.status e).trans h.statusReserved
    ecodeLegal := by
      rw [statusEcode_setEcode]
      exact e.bits_le }

theorem succeed (h : b.Inv) : (succeed b).Inv := h.withEcode .ok

/-- Dropping a bad frame keeps the invariant when `ERRIDX` gets the index of a group of the buffer. -/
theorem discardFrame (h : b.Inv) {i : Nat} (hi : i < 3) : (discardFrame i b).Inv :=
  { h with
    errIdxLegal := by
      have hne : ∀ j < 3, BitVec.ofNat 2 j ≠ 3 := by decide
      exact hne i hi }

/-- An error keeps the invariant; the index of a checksum error is that of a group of the buffer. -/
theorem raise (h : b.Inv) (e : CommandError) (he : ∀ i, e = .checksumError i → i < 3) : (raise e b).Inv := by
  cases e with
  | illegalCommand => exact h.withEcode .illegal
  | lengthError => exact (h.discardFrame (by decide : 0 < 3)).withEcode .length
  | checksumError i => exact (h.discardFrame (he i rfl)).withEcode .checksum

/-- A host write to a register keeps the invariant. -/
theorem writeReg (h : b.Inv) (n : BitVec 8) (v : Nat) : (writeReg b n v).Inv where
  bufCanonical   := writeReg_wf b n v h.bufCanonical
  statusReserved := by rw [writeReg_status]; exact h.statusReserved
  ecodeLegal     := by rw [writeReg_status]; exact h.ecodeLegal
  ctrlReserved   := by
    rcases writeReg_ctrl b n v with e | e <;> rw [e]
    · exact h.ctrlReserved
    · exact ctrlWrite_reserved v
  errIdxLegal    := by rw [writeReg_errIdx]; exact h.errIdxLegal

end Block.Inv

/-- A frame that passes the length test has at most three groups, so a bad group's index is below 3. -/
theorem groups_le_three {L : Nat} {expect : Option Nat} (h : badFrameLength L expect = false) : L / 3 ≤ 3 := by
  have hgroups := (groups_of_length h).2
  simp only [bufLen] at hgroups
  omega

/-- Every way a command can end keeps the invariant. -/
theorem ExecResult.inv {b b' : Block} {i : Instr} (hr : ExecResult b i b') (h : b.Inv) : b'.Inv := by
  cases hr with
  | nop => exact h
  | clr => exact inv_reset
  | illegal => exact h.raise _ nofun
  | crcCalc r w => exact .succeed { h with }
  | crcVrfy r w =>
    exact .succeed { h with
      statusReserved := by simpa using h.statusReserved
      ecodeLegal := by simpa using h.ecodeLegal }
  | cnvCo2 r w => exact .succeed { h with }
  | cnvTmp r w => exact .succeed { h with }
  | cnvHum r w => exact .succeed { h with }
  | cnvRdy r w =>
    exact .succeed { h with
      statusReserved := by simpa using h.statusReserved
      ecodeLegal := by simpa using h.ecodeLegal }
  | cnvAll => exact .succeed { h with }
  | frmEnc m hwf => exact .succeed { h with bufCanonical := hwf h.bufCanonical }
  | frmDecLength => exact h.raise _ nofun
  | frmDecChecksum hlen j hj =>
    have hcrc : Block.Inv { b with crc := crc8 (bufWord b.buf j) } := { h with }
    refine hcrc.raise _ ?_
    rintro _ ⟨⟩
    exact Nat.lt_of_lt_of_le hj (groups_le_three hlen)
  | frmDecWords => exact .succeed { h with errIdxLegal := by rw [deliverFrame_errIdx]; decide }

/-- Settles O14: the buffer is empty and the registers of the invariant are 0. -/
theorem resetMeetsTheInvariant : Obligations.ResetMeetsTheInvariant := inv_reset

/-- Settles O15: a step serves one access, and each kind of access keeps the invariant. -/
theorem stepKeepsTheInvariant : Obligations.StepKeepsTheInvariant := by
  intro s t hs hstep
  rcases step_cases s with ⟨-, e⟩ | ⟨n, rest, -, e⟩ | ⟨n, v, rest, -, -, e⟩ | ⟨v, rest, i, -, -, e⟩ |
    ⟨v, rest, err, -, -, e⟩ | ⟨rest, -, e⟩
  · cases e.symm.trans hstep
    exact hs
  · cases e.symm.trans hstep
    exact hs
  · cases e.symm.trans hstep
    exact Block.Inv.writeReg hs n v
  · obtain ⟨-, hr⟩ := exec_inversion (e.symm.trans hstep)
    exact hr.inv hs
  · cases e.symm.trans hstep
    exact Block.Inv.raise hs .illegalCommand nofun
  · cases e.symm.trans hstep
    exact inv_reset

end Sys2Proof.Machine

/-! PROOFS. The buffer's canonical form is unique: its pairs are exactly its bytes that are not blank
(spec/20_memory.md R40). -/

namespace Sys2Proof.Machine

/-- A canonical buffer lists a pair exactly when the pair's byte is not blank and stands at its index. -/
theorem mem_iff_lookup {m : Memory} (hm : m.wf) (c : Host.Cell) :
    c ∈ m ↔ c.2 ≠ Memory.blank ∧ Memory.lookup m c.1 = c.2 := by
  induction m with
  | nil => simpa using fun hne => Ne.symm hne
  | cons d m ih =>
    obtain ⟨hrising, hcells⟩ := hm
    obtain ⟨hhead, htail⟩ := List.pairwise_cons.mp hrising
    have ih := ih ⟨htail, fun e he => hcells e (by simp [he])⟩
    rw [List.mem_cons, lookup_cons]
    by_cases hk : d.1 = c.1
    · have hnot : c ∉ m := fun hc => absurd (hhead c hc) (by omega)
      have hd : d.2 ≠ Memory.blank := (hcells d (by simp)).2
      rw [if_pos hk]
      constructor
      · rintro (rfl | hc)
        · exact ⟨hd, rfl⟩
        · exact absurd hc hnot
      · exact fun ⟨_, he⟩ => .inl (Prod.ext hk.symm he.symm)
    · rw [if_neg hk, ← ih]
      exact or_iff_right fun hc => hk (congrArg Prod.fst hc).symm

/-- Settles O18: canonical buffers that read alike list the same pairs, and lists with rising indices and the same pairs
are equal. -/
theorem canonicalBuffersAreEqualWhenTheyReadAlike : Obligations.CanonicalBuffersAreEqualWhenTheyReadAlike := by
  intro m m' hm hm' hread
  have hmem : ∀ c, c ∈ m ↔ c ∈ m' := fun c => by rw [mem_iff_lookup hm, mem_iff_lookup hm', hread]
  have hantisymm : Std.Antisymm fun c d : Host.Cell => c.1 < d.1 := ⟨fun _ _ h h' => absurd h (Nat.lt_asymm h')⟩
  have hirrefl : Std.Irrefl fun c d : Host.Cell => c.1 < d.1 := ⟨fun c => Nat.lt_irrefl c.1⟩
  exact List.Pairwise.eq_of_mem_iff hm.1 hm'.1 hmem

end Sys2Proof.Machine

/-! PROOFS. The host's register accesses (spec/10_state.md R19, R20, R30 to R32, R34). -/

namespace Sys2Proof.Machine

/-! ## Reading -/

theorem ctrlRead_toNat (ct : BitVec 8) : (ctrlRead ct).toNat = ct.toNat % 16 := by
  revert ct
  decide

theorem ctrlRead_ctrlWrite (v : Nat) : (ctrlRead (ctrlWrite v)).toNat = v % 16 := by
  simp only [ctrlRead_toNat, ctrlWrite, BitVec.toNat_ofNat]
  omega

/-- A reserved number reads 0. -/
theorem readReg_reserved (b : Block) {n : BitVec 8} (h : reservedReg n) : readReg b n = 0 := by
  rcases h with rfl | rfl | h
  · rfl
  · rfl
  · unfold readReg
    split
    case h_15 => exact if_neg (by simp only [bufLen]; omega)
    all_goals omega

theorem readsAsMapped_block (b : Block) : readsAsMapped b :=
  ⟨rfl, rfl, ctrlRead_toNat b.ctrl, rfl, rfl, rfl, rfl, rfl, rfl, rfl, rfl, rfl, rfl, rfl,
    fun k hk => readReg_buf b k (Nat.lt_succ_of_le hk), fun _ hn => readReg_reserved b hn⟩

/-! ## Writing -/

/-- The numbers that store nothing are ignored. -/
theorem writeReg_ignored (b : Block) {n : BitVec 8} (v : Nat) (h : storedBits n = none) : writeReg b n v = b := by
  unfold storedBits at h
  split at h <;> simp at h
  unfold writeReg
  split
  case h_8 => exact if_neg (by simp only [bufLen]; omega)
  all_goals contradiction

/-- A read-only register or a reserved number stores nothing, and is not `CMD`. -/
theorem storedBits_eq_none {n : BitVec 8} (h : readOnlyReg n ∨ reservedReg n) : storedBits n = none ∧ n ≠ cmdReg := by
  unfold readOnlyReg reservedReg at h
  revert n
  decide

/-- The number `0x10 + k` writes byte `k` of the frame buffer. -/
theorem writeReg_buf (b : Block) {k : Nat} (v : Nat) (h : k ≤ 8) :
    writeReg b (BitVec.ofNat 8 (0x10 + k)) v = { b with buf := b.buf.set k (BitVec.ofNat 8 v) } := by
  have : k = 0 ∨ k = 1 ∨ k = 2 ∨ k = 3 ∨ k = 4 ∨ k = 5 ∨ k = 6 ∨ k = 7 ∨ k = 8 := by omega
  rcases this with rfl | rfl | rfl | rfl | rfl | rfl | rfl | rfl | rfl <;> rfl

/-- The read-write registers with their widths (R31, R32). -/
theorem storedBits_cases : ∀ n : BitVec 8, ∀ k ∈ storedBits n,
    (n = 0x02 ∧ k = 4) ∨ (n = 0x03 ∧ k = 2) ∨ (n = 0x04 ∧ k = 4) ∨ (n = 0x05 ∧ k = 8) ∨ (n = 0x08 ∧ k = 16) ∨
    (n = 0x09 ∧ k = 16) ∨ (n = 0x0A ∧ k = 16) ∨ (∃ j ≤ 8, n = BitVec.ofNat 8 (0x10 + j) ∧ k = 8) := by
  decide

/-- The register written reads the value cut to its width. -/
theorem readReg_writeReg_self (b : Block) {n : BitVec 8} (v : Nat) {k : Nat} (h : storedBits n = some k) :
    readReg (writeReg b n v) n = v % 2 ^ k := by
  rcases storedBits_cases n k h with ⟨rfl, rfl⟩ | ⟨rfl, rfl⟩ | ⟨rfl, rfl⟩ | ⟨rfl, rfl⟩ | ⟨rfl, rfl⟩ | ⟨rfl, rfl⟩ |
    ⟨rfl, rfl⟩ | ⟨j, hj, rfl, rfl⟩
  case inl => exact ctrlRead_ctrlWrite v
  case inr.inr.inr.inr.inr.inr.inr =>
    rw [writeReg_buf b v hj, readReg_buf _ j (Nat.lt_succ_of_le hj), lookup_set, if_pos rfl, BitVec.toNat_ofNat]
  all_goals exact BitVec.toNat_ofNat ..

/-- A byte written to the frame buffer is read at its own number only. -/
theorem readReg_set_buf_of_ne (b : Block) {m : BitVec 8} {a : Nat} (v : BitVec 8) (h : m.toNat ≠ 0x10 + a) :
    readReg { b with buf := b.buf.set a v } m = readReg b m := by
  have hbyte : 0x10 ≤ m.toNat →
      Memory.lookup (b.buf.set a v) (m.toNat - 0x10) = Memory.lookup b.buf (m.toNat - 0x10) :=
    fun hm => by rw [lookup_set, if_neg (by omega)]
  unfold readReg
  split
  case h_15 => exact ite_congr rfl (fun hm => congrArg BitVec.toNat (hbyte hm.1)) fun _ => rfl
  all_goals rfl

/-- Every number but the one written reads as before. -/
theorem readReg_writeReg_of_ne (b : Block) {n m : BitVec 8} (v : Nat) (h : m ≠ n) :
    readReg (writeReg b n v) m = readReg b m := by
  have hne : m.toNat ≠ n.toNat := fun e => h (BitVec.eq_of_toNat_eq e)
  rcases writeReg_cases b n v with ⟨hn, e⟩ | ⟨hn, e⟩ | ⟨hn, e⟩ | ⟨hn, e⟩ | ⟨hn, e⟩ | ⟨hn, e⟩ | ⟨hn, e⟩ |
    ⟨hlo, hhi, e⟩ | ⟨-, -, e⟩ <;> rw [e]
  case inr.inr.inr.inr.inr.inr.inr.inl => exact readReg_set_buf_of_ne b _ (by omega)
  all_goals
    unfold readReg
    split <;> first | rfl | omega

/-- Settles O8: the number written, every other number, and a write that stores nothing. -/
theorem readAfterWriteAtEveryNumber : Obligations.ReadAfterWriteAtEveryNumber := by
  intro b n m v
  cases hstored : storedBits n with
  | none => simp only [writeReg_ignored b v hstored]
  | some k =>
    by_cases hm : m = n
    · subst hm
      simpa using readReg_writeReg_self b v hstored
    · simpa [hm] using readReg_writeReg_of_ne b v hm

/-! ## Steps that serve one access -/

/-- A step that serves a host write to a register. -/
theorem step_hostWrite {s : State} {n : BitVec 8} {v : Nat} {rest : List HostAction} (h : s.pending = .write n v :: rest)
    (hn : n ≠ cmdReg) : step s = .next { s with pending := rest, blk := writeReg s.blk n v } :=
  (step_serve h).trans (serve_write hn v _)

theorem step_hostWrite_ctrl {s : State} {v : Nat} {rest : List HostAction} (h : s.pending = .write 0x02 v :: rest) :
    step s = .next { s with pending := rest, blk := { s.blk with ctrl := BitVec.ofNat 8 (v % 16) } } :=
  step_hostWrite h (by decide)

/-- Settles O5: a write to `CMD` is served by running the command of its byte. -/
theorem stepRunsTheDecodedCommand : Obligations.StepRunsTheDecodedCommand := by
  intro s v rest i hpending hdecode
  rw [step_serve hpending]
  exact (serve_command v _).trans (command_legal hdecode _)

/-- Cutting a value to the width of a register before storing it is the same as storing it. -/
theorem ofNat_mod_eq_ofNat (w v : Nat) {N : Nat} (hN : N = 2 ^ w) : BitVec.ofNat w (v % N) = BitVec.ofNat w v := by
  subst hN
  exact BitVec.eq_of_toNat_eq (by simp)

/-- Settles O7: the register map number by number, then a write to each kind of number. -/
theorem hostAccessesReachOneRegister : Obligations.HostAccessesReachOneRegister := by
  refine ⟨fun s n rest hpending => step_serve hpending, readsAsMapped_block, fun s n v rest hpending => ?_⟩
  refine ⟨fun hn => ?_, ?_, ?_, ?_, ?_, ?_, ?_, ?_, ?_⟩
  · obtain ⟨hstored, hcmd⟩ := storedBits_eq_none hn
    rw [step_hostWrite hpending hcmd, writeReg_ignored _ v hstored]
  · rintro rfl
    exact step_hostWrite_ctrl hpending
  case refine_9 =>
    rintro k hk rfl
    refine ⟨s.blk.buf.set k (BitVec.ofNat 8 v), ?_, fun j => ?_⟩
    · have hcmd : BitVec.ofNat 8 (0x10 + k) ≠ cmdReg := by
        have hne : ∀ k ≤ 8, BitVec.ofNat 8 (0x10 + k) ≠ cmdReg := by decide
        exact hne k hk
      rw [step_hostWrite hpending hcmd, writeReg_buf _ v hk]
    · have hcut : BitVec.ofNat 8 (v % 256) = BitVec.ofNat 8 v := ofNat_mod_eq_ofNat 8 v rfl
      simp only [lookup_set, hcut, eq_comm (a := k)]
  all_goals
    rintro rfl
    rw [step_hostWrite hpending (by decide), ofNat_mod_eq_ofNat] <;> rfl

/-- Settles O12: each value is read off `Block.reset`. -/
theorem resetValuesOfTheBlock : Obligations.ResetValuesOfTheBlock :=
  ⟨rfl, rfl, rfl, fun _ => rfl, rfl, rfl, rfl, rfl, rfl, rfl, rfl, rfl, rfl, rfl⟩

end Sys2Proof.Machine

/-! PROOFS. Which registers each command writes (spec/10_state.md R12, R16, R17, R20, R23 to R28, R32,
spec/20_memory.md R43): one lemma for each group of registers, over every way a command can end. -/

namespace Sys2Proof.Machine

@[simp] theorem statusMatch_raise (e : CommandError) (b : Block) :
    statusMatch (raise e b).status = statusMatch b.status := by
  cases e <;> exact statusMatch_setEcode _ _

@[simp] theorem statusReady_raise (e : CommandError) (b : Block) :
    statusReady (raise e b).status = statusReady b.status := by
  cases e <;> exact statusReady_setEcode _ _

namespace ExecResult

variable {b b' : Block} {i : Instr}

/-- The words, `WCNT` and `ERRIDX` are written by `FRM.DEC` and `CLR` only (R12, R23, R27). -/
theorem words_eq (hr : ExecResult b i b') (hdec : i ≠ .frmDec) (hclr : i ≠ .clr) :
    b'.w0 = b.w0 ∧ b'.w1 = b.w1 ∧ b'.w2 = b.w2 ∧ b'.wcnt = b.wcnt ∧ b'.errIdx = b.errIdx := by
  cases hr
  case clr => exact absurd rfl hclr
  case frmDecLength | frmDecChecksum | frmDecWords => exact absurd rfl hdec
  all_goals exact ⟨rfl, rfl, rfl, rfl, rfl⟩

/-- The frame buffer and `LEN` are written by `FRM.ENC` and `CLR` only (R24, R43). -/
theorem buf_len_eq (hr : ExecResult b i b') (henc : i ≠ .frmEnc) (hclr : i ≠ .clr) :
    b'.buf = b.buf ∧ b'.len = b.len := by
  cases hr
  case clr => exact absurd rfl hclr
  case frmEnc => exact absurd rfl henc
  all_goals exact ⟨rfl, rfl⟩

/-- `CTRL` and `CHK` are written by `CLR` only (R20, R25). -/
theorem ctrl_chk_eq (hr : ExecResult b i b') (hclr : i ≠ .clr) : b'.ctrl = b.ctrl ∧ b'.chk = b.chk := by
  cases hr
  case clr => exact absurd rfl hclr
  all_goals exact ⟨rfl, rfl⟩

/-- `CRC` is written by the checksum and frame commands and `CLR` only (R26). -/
theorem crc_eq (hr : ExecResult b i b') (hcalc : ∀ r, i ≠ .crcCalc r) (hvrfy : ∀ r, i ≠ .crcVrfy r)
    (henc : i ≠ .frmEnc) (hdec : i ≠ .frmDec) (hclr : i ≠ .clr) : b'.crc = b.crc := by
  cases hr
  case clr => exact absurd rfl hclr
  case crcCalc r _ _ => exact absurd rfl (hcalc r)
  case crcVrfy r _ _ => exact absurd rfl (hvrfy r)
  case frmEnc => exact absurd rfl henc
  case frmDecLength | frmDecChecksum | frmDecWords => exact absurd rfl hdec
  all_goals rfl

/-- `CO2` is written by its conversion, `CNV.ALL` and `CLR` only (R28). -/
theorem co2_eq (hr : ExecResult b i b') (hco2 : ∀ r, i ≠ .cnvCo2 r) (hall : i ≠ .cnvAll) (hclr : i ≠ .clr) :
    b'.co2 = b.co2 := by
  cases hr
  case clr => exact absurd rfl hclr
  case cnvCo2 r _ _ => exact absurd rfl (hco2 r)
  case cnvAll => exact absurd rfl hall
  all_goals rfl

/-- `TEMP` is written by its conversion, `CNV.ALL` and `CLR` only (R28). -/
theorem temp_eq (hr : ExecResult b i b') (htmp : ∀ r, i ≠ .cnvTmp r) (hall : i ≠ .cnvAll) (hclr : i ≠ .clr) :
    b'.temp = b.temp := by
  cases hr
  case clr => exact absurd rfl hclr
  case cnvTmp r _ _ => exact absurd rfl (htmp r)
  case cnvAll => exact absurd rfl hall
  all_goals rfl

/-- `HUM` is written by its conversion, `CNV.ALL` and `CLR` only (R28). -/
theorem hum_eq (hr : ExecResult b i b') (hhum : ∀ r, i ≠ .cnvHum r) (hall : i ≠ .cnvAll) (hclr : i ≠ .clr) :
    b'.hum = b.hum := by
  cases hr
  case clr => exact absurd rfl hclr
  case cnvHum r _ _ => exact absurd rfl (hhum r)
  case cnvAll => exact absurd rfl hall
  all_goals rfl

/-- `MATCH` is written by `CRC.VRFY` and `CLR` only (R16). -/
theorem statusMatch_eq (hr : ExecResult b i b') (hvrfy : ∀ r, i ≠ .crcVrfy r) (hclr : i ≠ .clr) :
    statusMatch b'.status = statusMatch b.status := by
  cases hr
  case clr => exact absurd rfl hclr
  case crcVrfy r _ _ => exact absurd rfl (hvrfy r)
  all_goals simp

/-- `READY` is written by `CNV.RDY` and `CLR` only (R16). -/
theorem statusReady_eq (hr : ExecResult b i b') (hrdy : ∀ r, i ≠ .cnvRdy r) (hclr : i ≠ .clr) :
    statusReady b'.status = statusReady b.status := by
  cases hr
  case clr => exact absurd rfl hclr
  case cnvRdy r _ _ => exact absurd rfl (hrdy r)
  all_goals simp

/-- `NOP` writes nothing (R140). -/
theorem block_eq_of_nop (hr : ExecResult b .nop b') : b' = b := by
  cases hr
  case nop => rfl
  case illegal h => exact absurd h (by decide)

/-- A well-formed command other than `NOP` leaves `ECODE` 0, or it was `FRM.DEC` and leaves the code of one of its two
errors (R17, R150, R156). -/
theorem statusEcode_cases (hr : ExecResult b i b') (hwf : i.wellFormed = true) (hnop : i ≠ .nop) :
    statusEcode b'.status = 0 ∨ (i = .frmDec ∧ (statusEcode b'.status = 1 ∨ statusEcode b'.status = 2)) := by
  cases hr
  case nop => exact absurd rfl hnop
  case clr => exact .inl (by decide)
  case illegal h => exact absurd (hwf.symm.trans h) (by decide)
  case frmDecLength => exact .inr ⟨rfl, .inr (statusEcode_setEcode _ .length)⟩
  case frmDecChecksum => exact .inr ⟨rfl, .inl (statusEcode_setEcode _ .checksum)⟩
  all_goals exact .inl (statusEcode_setEcode _ .ok)

end ExecResult

/-- Settles O19: clause by clause, over the ways a command can end. -/
theorem onlyListedCommandsWriteARegister : Obligations.OnlyListedCommandsWriteARegister := by
  intro i s t h
  obtain ⟨ht, hr⟩ := exec_inversion h
  exact ⟨hr.words_eq, hr.buf_len_eq, hr.ctrl_chk_eq, hr.crc_eq, hr.co2_eq, hr.temp_eq, hr.hum_eq, hr.statusMatch_eq,
    hr.statusReady_eq, fun hnop => (hnop ▸ hr).block_eq_of_nop, by rw [ht, withBlk_pending], by rw [ht, withBlk_returned]⟩

/-- Settles O20: by the code that each way of ending leaves in `ECODE`. -/
theorem onlyFrmDecFails : Obligations.OnlyFrmDecFails := by
  intro i s t hwf h
  obtain ⟨-, hr⟩ := exec_inversion h
  exact ⟨fun hnop => congrArg Block.status (hnop ▸ hr).block_eq_of_nop, hr.statusEcode_cases hwf⟩

/-- After a command `CTRL` is as before, or 0 when the command was `CLR` (R20). -/
theorem exec_ctrl {i : Instr} {s t : State} (h : exec i s = .next t) :
    t.blk.ctrl = if i = .clr then 0x00 else s.blk.ctrl := by
  split
  case isTrue hclr =>
    subst hclr
    cases (exec_clr s).symm.trans h
    rfl
  case isFalse hclr => exact ((exec_inversion h).2.ctrl_chk_eq hclr).1

/-- `FAM` is bit 0 of `CTRL` (R20, R22). -/
theorem family_eq_combined_iff (b : Block) : b.family = .combined ↔ b.ctrl.getLsbD 0 = true := by
  unfold Block.family ctrlFam
  split
  case isTrue h => exact iff_of_true rfl h
  case isFalse h => exact iff_of_false nofun h

/-- Settles O24: the host's write, the commands' effect, and the layout of the byte. -/
theorem ctrlIsWrittenByHostAndClrOnly : Obligations.CtrlIsWrittenByHostAndClrOnly := by
  refine ⟨fun _ _ _ => step_hostWrite_ctrl, fun _ _ _ => exec_ctrl, rfl, fun b => ?_, fun b =>
    ⟨family_eq_combined_iff b, rfl⟩⟩
  have hread : readReg b 0x02 = b.ctrl.toNat % 16 := ctrlRead_toNat b.ctrl
  rw [hread]
  exact Nat.mod_lt _ (by decide)

end Sys2Proof.Machine

/-! PROOFS. Two runs of a command side by side: what no command reads does not reach what it leaves
(spec/10_state.md R16, R22). -/

namespace Sys2Proof.Machine

/-- Command `i` completes on `s` and on `s` with the block `b`, and leaves blocks that `R` relates. -/
def LeavesRelated (R : Block → Block → Prop) (i : Instr) (s : State) (b : Block) : Prop :=
  ∃ c c', exec i s = .next (s.withBlk c) ∧ exec i (s.withBlk b) = .next (s.withBlk c') ∧ R c c'

/-- The blocks are equal in every register but `STATUS`. -/
def EqOffStatus (c c' : Block) : Prop := c' = { c with status := c'.status }

/-- The blocks are equal in every register but `CTRL`. -/
def EqOffCtrl (c c' : Block) : Prop := c' = { c with ctrl := c'.ctrl }

section

variable {R : Block → Block → Prop} {b b' : Block}

/-- A format-R command on two blocks with the same words. -/
theorem onWord_related {i : Instr} {r : BitVec 2} {f : BitVec 16 → Block → Block} {s : State}
    (hexec : ∀ s, exec i s = onWord r s f) (hword : b'.word r = s.blk.word r) (hf : ∀ w, R (f w s.blk) (f w b'))
    (hillegal : R (raise .illegalCommand s.blk) (raise .illegalCommand b')) : LeavesRelated R i s b' := by
  unfold LeavesRelated
  simp only [hexec, onWord, withBlk_blk, hword]
  cases s.blk.word r with
  | some w => exact ⟨_, _, rfl, rfl, hf w⟩
  | none => exact ⟨_, _, rfl, rfl, hillegal⟩

/-- The loop of `FRM.ENC` reads the buffer and its words only: it writes the same buffer and the same checksum into any two
blocks with the same buffer. -/
theorem encLoop_parallel (ws : List (BitVec 16)) (i : Nat) (hbuf : b'.buf = b.buf) (h : 3 * (i + ws.length) ≤ bufLen) :
    ∃ m, encLoop ws i b = .ok { b with buf := m, crc := (ws.map crc8).getLastD b.crc } ∧
      encLoop ws i b' = .ok { b' with buf := m, crc := (ws.map crc8).getLastD b'.crc } := by
  induction ws generalizing i b b' with
  | nil => exact ⟨b.buf, rfl, by rw [← hbuf]; rfl⟩
  | cons w ws ih =>
    simp only [List.length_cons] at h
    obtain ⟨m1, hw, -⟩ := memWrite_ok b.buf (group w) (3 * i) (by simp [group, bufLen] at h ⊢; omega)
    obtain ⟨m, he, he'⟩ := ih (b := { b with buf := m1, crc := crc8 w }) (b' := { b' with buf := m1, crc := crc8 w })
      (i + 1) rfl (by omega)
    refine ⟨m, ?_, ?_⟩
    · simp only [encLoop, hw, he, List.map_cons, List.getLastD_cons]
    · simp only [encLoop, hbuf, hw, he', List.map_cons, List.getLastD_cons]

/-- `FRM.ENC` on two blocks with the same buffer, count and words writes the same buffer, checksum and length. -/
theorem frmEnc_related {s : State} (hbuf : b'.buf = s.blk.buf) (hwcnt : b'.wcnt = s.blk.wcnt)
    (hwords : b'.words = s.blk.words)
    (hok : ∀ m, R
      (succeed { s.blk with
        buf := m, crc := (s.blk.frameWords.map crc8).getLastD s.blk.crc, len := BitVec.ofNat 4 (3 * s.blk.wcnt.toNat) })
      (succeed { b' with
        buf := m, crc := (s.blk.frameWords.map crc8).getLastD b'.crc, len := BitVec.ofNat 4 (3 * s.blk.wcnt.toNat) })) :
    LeavesRelated R .frmEnc s b' := by
  have hframe : b'.frameWords = s.blk.frameWords := by rw [Block.frameWords, hwcnt, hwords, Block.frameWords]
  have hcount : 3 * (0 + s.blk.frameWords.length) ≤ bufLen := by
    simp only [Block.frameWords, Block.words, List.length_take, List.length_cons, List.length_nil, bufLen]
    omega
  obtain ⟨m, he, he'⟩ := encLoop_parallel (b := s.blk) (b' := b') s.blk.frameWords 0 hbuf hcount
  refine ⟨_, _, ?_, ?_, hok m⟩
  · simp only [exec_frmEnc, frmEnc, he, completesOrFaults_ok]
  · simp only [exec_frmEnc, frmEnc, withBlk_blk, hframe, he', hwcnt, completesOrFaults_ok, withBlk_withBlk]

/-- `FRM.DEC` on two blocks with the same frame, checksum register and expected count ends in the same way. -/
theorem frmDec_related {s : State} (hlen : b'.len = s.blk.len) (hexpected : b'.expected = s.blk.expected)
    (hbuf : b'.buf = s.blk.buf) (hcrc : b'.crc = s.blk.crc)
    (hlength : R (raise .lengthError s.blk) (raise .lengthError b'))
    (hchecksum : ∀ j c, R (raise (.checksumError j) { s.blk with crc := c }) (raise (.checksumError j) { b' with crc := c }))
    (hwords : ∀ ws c, R (succeed (deliverFrame ws { s.blk with crc := c })) (succeed (deliverFrame ws { b' with crc := c }))) :
    LeavesRelated R .frmDec s b' := by
  have htest : badFrameLength b'.len.toNat b'.expected = badFrameLength s.blk.len.toNat s.blk.expected := by
    rw [hlen, hexpected]
  have hloop : decLoop b'.buf (b'.len.toNat / 3) 0 [] b'.crc =
      decLoop s.blk.buf (s.blk.len.toNat / 3) 0 [] s.blk.crc := by
    rw [hbuf, hlen, hcrc]
  unfold LeavesRelated
  simp only [exec_frmDec, frmDec, withBlk_blk, htest, hloop]
  cases hbad : badFrameLength s.blk.len.toNat s.blk.expected with
  | true => exact ⟨_, _, rfl, rfl, hlength⟩
  | false =>
    rcases decLoop_cases s.blk.buf (s.blk.len.toNat / 3) 0 [] s.blk.crc (groups_of_length hbad).2 with
      ⟨-, he⟩ | ⟨j, -, -, -, -, he⟩ <;> rw [he]
    · exact ⟨_, _, rfl, rfl, hwords _ _⟩
    · exact ⟨_, _, rfl, rfl, hchecksum _ _⟩

end

/-- No command reads `STATUS`. -/
theorem leavesRelated_status (i : Instr) (s : State) (st : BitVec 8) :
    LeavesRelated EqOffStatus i s { s.blk with status := st } := by
  cases i with
  | nop => exact ⟨_, _, rfl, rfl, rfl⟩
  | clr => exact ⟨_, _, rfl, rfl, rfl⟩
  | cnvAll => exact ⟨_, _, rfl, rfl, rfl⟩
  | crcCalc r => exact onWord_related (exec_crcCalc r) rfl (fun _ => rfl) rfl
  | crcVrfy r => exact onWord_related (exec_crcVrfy r) rfl (fun _ => rfl) rfl
  | cnvCo2 r => exact onWord_related (exec_cnvCo2 r) rfl (fun _ => rfl) rfl
  | cnvTmp r => exact onWord_related (exec_cnvTmp r) rfl (fun _ => rfl) rfl
  | cnvHum r => exact onWord_related (exec_cnvHum r) rfl (fun _ => rfl) rfl
  | cnvRdy r => exact onWord_related (exec_cnvRdy r) rfl (fun _ => rfl) rfl
  | frmEnc => exact frmEnc_related rfl rfl rfl fun _ => rfl
  | frmDec => exact frmDec_related rfl rfl rfl rfl rfl (fun _ _ => rfl) fun _ _ => rfl

/-- Settles O22: the two runs leave blocks that are equal off `STATUS`. -/
theorem noCommandReadsStatus : Obligations.NoCommandReadsStatus := by
  intro i s st
  obtain ⟨c, c', h, h', hR⟩ := leavesRelated_status i s st
  exact ⟨s.withBlk c, s.withBlk c', h, h', congrArg s.withBlk hR⟩

/-- `EXPEN` and `EXPW` are bits 3:1 of `CTRL`, so those bits fix the expected count (R20, R21). -/
theorem expected_congr {b b' : Block} (h : b'.ctrl.extractLsb' 1 3 = b.ctrl.extractLsb' 1 3) :
    b'.expected = b.expected := by
  have hexpen : ∀ ct : BitVec 8, ctrlExpen ct = (ct.extractLsb' 1 3).getLsbD 0 := by decide
  have hexpw : ∀ ct : BitVec 8, ctrlExpw ct = (ct.extractLsb' 1 3).extractLsb' 1 2 := by decide
  simp only [Block.expected, hexpen, hexpw, h]

/-- Of `CTRL`, a command outside the converter reads bits 3:1 at most. -/
theorem leavesRelated_ctrl (i : Instr) (s : State) (ct : BitVec 8) (hfam : ¬readsFamily i)
    (hct : ct.extractLsb' 1 3 = s.blk.ctrl.extractLsb' 1 3) :
    LeavesRelated EqOffCtrl i s { s.blk with ctrl := ct } := by
  cases i with
  | nop => exact ⟨_, _, rfl, rfl, rfl⟩
  | clr => exact ⟨_, _, rfl, rfl, rfl⟩
  | crcCalc r => exact onWord_related (exec_crcCalc r) rfl (fun _ => rfl) rfl
  | crcVrfy r => exact onWord_related (exec_crcVrfy r) rfl (fun _ => rfl) rfl
  | frmEnc => exact frmEnc_related rfl rfl rfl fun _ => rfl
  | frmDec => exact frmDec_related rfl (expected_congr hct) rfl rfl rfl (fun _ _ => rfl) fun _ _ => rfl
  | cnvCo2 | cnvTmp | cnvHum | cnvRdy | cnvAll => exact absurd trivial hfam

/-- Settles O23: the two runs leave blocks that are equal off `CTRL`. -/
theorem onlyTheConverterReadsFam : Obligations.OnlyTheConverterReadsFam := by
  intro i s ct hfam hct
  obtain ⟨c, c', h, h', hR⟩ := leavesRelated_ctrl i s ct hfam hct
  exact ⟨s.withBlk c, s.withBlk c', h, h', congrArg s.withBlk hR⟩

end Sys2Proof.Machine

/-! PROOFS. Accesses in their order: the host's side has no influence on what an access does to the block, and no run
stops (spec/20_memory.md R45, R47, spec/43_control.md R145, R146). -/

namespace Sys2Proof.Machine

/-! ## One command -/

/-- A format-R command leaves one block, whatever the host has still to do and has read. -/
theorem onWord_uniform {i : Instr} {r : BitVec 2} {f : BitVec 16 → Block → Block}
    (he : ∀ s, exec i s = onWord r s f) (b : Block) : ∃ c, ∀ p vs, exec i ⟨b, p, vs⟩ = .next ⟨c, p, vs⟩ := by
  rcases wordIdx_cases r with rfl | rfl | rfl | rfl
  · exact ⟨f b.w0 b, fun _ _ => he _⟩
  · exact ⟨f b.w1 b, fun _ _ => he _⟩
  · exact ⟨f b.w2 b, fun _ _ => he _⟩
  · exact ⟨raise .illegalCommand b, fun _ _ => he _⟩

/-- So does a command with buffer accesses: it completes, so none of them faults. -/
theorem completesOrFaults_uniform {i : Instr} {g : Block → Except Fault Block}
    (he : ∀ s, exec i s = completesOrFaults s (g s.blk)) (b : Block) :
    ∃ c, ∀ p vs, exec i ⟨b, p, vs⟩ = .next ⟨c, p, vs⟩ := by
  obtain ⟨_, hexec, -⟩ := exec_result i ⟨b, [], []⟩
  rw [he] at hexec
  cases hg : g b with
  | ok c => exact ⟨c, fun p vs => by rw [he, hg]; rfl⟩
  | error f =>
    rw [hg] at hexec
    cases hexec

/-- Every command completes, and the block it leaves depends on the block only (R146). -/
theorem exec_uniform (i : Instr) (b : Block) : ∃ c, ∀ p vs, exec i ⟨b, p, vs⟩ = .next ⟨c, p, vs⟩ := by
  cases i with
  | nop => exact ⟨b, fun _ _ => rfl⟩
  | clr => exact ⟨Block.reset, fun _ _ => rfl⟩
  | crcCalc r => exact onWord_uniform (exec_crcCalc r) b
  | crcVrfy r => exact onWord_uniform (exec_crcVrfy r) b
  | cnvCo2 r => exact onWord_uniform (exec_cnvCo2 r) b
  | cnvTmp r => exact onWord_uniform (exec_cnvTmp r) b
  | cnvHum r => exact onWord_uniform (exec_cnvHum r) b
  | cnvRdy r => exact onWord_uniform (exec_cnvRdy r) b
  | cnvAll => exact ⟨succeed (convAll Config.params.params b), fun _ _ => rfl⟩
  | frmEnc => exact completesOrFaults_uniform exec_frmEnc b
  | frmDec => exact completesOrFaults_uniform exec_frmDec b

/-! ## One access -/

/-- Every access is served, and the accesses behind it neither change nor have any influence (R145, R146). -/
theorem serve_uniform (a : HostAction) (s : State) :
    ∃ b vs, ∀ rest, serve a { s with pending := rest } = .next ⟨b, rest, vs⟩ := by
  cases a with
  | read n => exact ⟨s.blk, readReg s.blk n :: s.returned, fun _ => rfl⟩
  | reset => exact ⟨Block.reset, s.returned, fun _ => rfl⟩
  | write n v =>
    by_cases hn : n = cmdReg
    · subst hn
      simp only [serve_command]
      cases hd : decode (commandByte v) with
      | ok i =>
        obtain ⟨b, hb⟩ := exec_uniform i s.blk
        exact ⟨b, s.returned, fun rest => (command_legal hd _).trans (hb rest s.returned)⟩
      | error e => exact ⟨raise .illegalCommand s.blk, s.returned, fun _ => command_illegal hd _⟩
    · exact ⟨writeReg s.blk n v, s.returned, fun _ => serve_write hn v _⟩

/-- Every state has a next state. -/
theorem step_total (s : State) : ∃ t, step s = .next t := by
  cases hp : s.pending with
  | nil => exact ⟨s, step_idle hp⟩
  | cons a rest =>
    obtain ⟨b, vs, h⟩ := serve_uniform a s
    exact ⟨_, (step_serve hp).trans (h rest)⟩

/-! ## Runs -/

/-- Settles O16, by induction on the number of steps: each leads to a next state, and the rest of the run starts there. -/
theorem noRunEverStops : Obligations.NoRunEverStops := by
  intro s k
  induction k generalizing s with
  | zero => exact ⟨s, run_zero s⟩
  | succ k ih =>
    obtain ⟨u, hu⟩ := step_total s
    obtain ⟨t, ht⟩ := ih u
    exact ⟨t, (run_succ hu k).trans ht⟩

/-- A run through `as` leaves one block and one list of returned values, whatever accesses stand behind `as`, and leaves
exactly those accesses pending. -/
theorem run_uniform (as : List HostAction) (s : State) :
    ∃ b vs, ∀ bs, Host.Core.run Sys2Proof.core as.length { s with pending := as ++ bs } = .next ⟨b, bs, vs⟩ := by
  induction as generalizing s with
  | nil => exact ⟨s.blk, s.returned, fun _ => rfl⟩
  | cons a as ih =>
    obtain ⟨b, vs, hserve⟩ := serve_uniform a s
    obtain ⟨c, ws, hrun⟩ := ih ⟨b, [], vs⟩
    refine ⟨c, ws, fun bs => ?_⟩
    have hstep : step { s with pending := a :: (as ++ bs) } = .next ⟨b, as ++ bs, vs⟩ :=
      (step_serve rfl).trans (hserve (as ++ bs))
    exact (run_succ hstep as.length).trans (hrun bs)

/-- Settles O11: the run through `as` alone is the run with no accesses behind. -/
theorem accessesAreServedInOrder : Obligations.AccessesAreServedInOrder := by
  intro s t as bs h
  obtain ⟨b, vs, hrun⟩ := run_uniform as s
  have halone := hrun []
  rw [List.append_nil] at halone
  cases halone.symm.trans h
  exact ⟨rfl, hrun bs⟩

end Sys2Proof.Machine

/-! PROOFS. A register write repeated (spec/20_memory.md R44). -/

namespace Sys2Proof.Machine

/-- Taking an index off the list takes a pair just put there off as well. -/
theorem erase_insert (c : Host.Cell) (m : Memory) : (m.insert c).erase c.1 = m.erase c.1 := by
  induction m with
  | nil => simp [Memory.insert, Memory.erase]
  | cons d m ih =>
    simp only [Memory.insert, Memory.erase] at ih ⊢
    split
    · simp [List.filter_cons]
    · rw [List.filter_cons, List.filter_cons, ih]

theorem erase_erase (m : Memory) (a : Nat) : (m.erase a).erase a = m.erase a := by
  simp [Memory.erase, List.filter_filter]

theorem erase_set (m : Memory) (a : Nat) (v : BitVec 8) : (m.set a v).erase a = m.erase a := by
  unfold Memory.set
  split
  · exact erase_erase m a
  · exact (erase_insert (a, v) _).trans (erase_erase m a)

/-- What a write leaves depends on the bytes at the other indices only. -/
theorem set_congr {m m' : Memory} {a : Nat} (h : m.erase a = m'.erase a) (v : BitVec 8) : m.set a v = m'.set a v := by
  unfold Memory.set
  rw [h]

/-- The later of two writes at one index stands alone; of any buffer, canonical or not. -/
theorem set_set (m : Memory) (a : Nat) (u v : BitVec 8) : (m.set a u).set a v = m.set a v :=
  set_congr (erase_set m a u) v

/-- Settles O9: a number that stores nothing is ignored both times, a register of its own field is overwritten with the
same value, and so is a byte of the buffer. -/
theorem repeatedWriteIsOneWrite : Obligations.RepeatedWriteIsOneWrite := by
  intro b n v
  cases hstored : storedBits n with
  | none => exact writeReg_ignored _ v hstored
  | some k =>
    rcases storedBits_cases n k hstored with ⟨rfl, -⟩ | ⟨rfl, -⟩ | ⟨rfl, -⟩ | ⟨rfl, -⟩ | ⟨rfl, -⟩ | ⟨rfl, -⟩ |
      ⟨rfl, -⟩ | ⟨j, hj, rfl, -⟩
    case inr.inr.inr.inr.inr.inr.inr => simp only [writeReg_buf _ v hj, set_set]
    all_goals rfl

end Sys2Proof.Machine

/-! PROOFS. The command byte: its two halves, what each operation code selects, and the decoder and the encoder as inverses
(spec/30_encoding.md R61 to R64). -/

namespace Sys2Proof

/-! ## The two halves of a command byte -/

theorem op_toNat (c : Byte) : (c.extractLsb' 4 4).toNat = c.toNat / 16 := by
  simp only [BitVec.extractLsb'_toNat, Nat.shiftRight_eq_div_pow]
  omega

theorem low_toNat (c : Byte) : (c.extractLsb' 0 4).toNat = c.toNat % 16 := by simp

theorem op_append_low (c : Byte) : (c.extractLsb' 4 4 ++ c.extractLsb' 0 4 : Byte) = c := by
  revert c
  decide

/-- A byte with its low bits zero is the format-N byte of its operation code (R61). -/
theorem encodeN_op {c : Byte} (hlow : c.extractLsb' 0 4 = 0) : encodeN (c.extractLsb' 4 4) = c := by
  rw [encodeN, ← hlow, op_append_low]

/-- A byte with bits 3:2 zero is the format-R byte of its operation code and its field `r` (R62). -/
theorem encodeR_op {c : Byte} (hmiddle : (c.extractLsb' 0 4).extractLsb' 2 2 = 0) :
    encodeR (c.extractLsb' 4 4) ((c.extractLsb' 0 4).extractLsb' 0 2) = c := by
  have hsplit : ∀ low : BitVec 4, low.extractLsb' 2 2 = 0 → (0 : BitVec 2) ++ low.extractLsb' 0 2 = low := by decide
  rw [encodeR, hsplit _ hmiddle, op_append_low]

/-- A format-R byte as R64 writes it: the byte of `r` = 0, plus `r`. -/
theorem encodeR_eq_add (op : BitVec 4) (r : WordIdx) : encodeR op r = encodeN op + r.setWidth 8 := by
  revert op r
  decide

theorem WordIdx.wellFormed_iff (r : WordIdx) : WordIdx.wellFormed r = true ↔ r ≠ 3 := bne_iff_ne

/-! ## What an operation code selects -/

/-- The format is a function of `OP` alone (R63), and every operation code with a format is that of its command (R64). -/
theorem decode_cases (c : Byte) :
    ((c.extractLsb' 4 4).toNat ∈ [0x0, 0x3, 0x4, 0x9, 0xF] ∧
      ∃ i, decode c = decodeN (c.extractLsb' 0 4) i ∧ i.wellFormed = true ∧ encode i = encodeN (c.extractLsb' 4 4)) ∨
    ((c.extractLsb' 4 4).toNat ∈ [0x1, 0x2, 0x5, 0x6, 0x7, 0x8] ∧
      ∃ f, decode c = decodeR (c.extractLsb' 0 4) f ∧
        ∀ r, (f r).wellFormed = WordIdx.wellFormed r ∧ encode (f r) = encodeR (c.extractLsb' 4 4) r) ∨
    ((c.extractLsb' 4 4).toNat ∈ [0xA, 0xB, 0xC, 0xD, 0xE] ∧ decode c = .error .unassignedOp) := by
  unfold decode
  generalize c.extractLsb' 4 4 = op
  obtain ⟨⟨k, hk⟩⟩ := op
  interval_cases k
  · exact .inl ⟨by simp, .nop, rfl, rfl, rfl⟩
  · exact .inr (.inl ⟨by simp, .crcCalc, rfl, fun _ => ⟨rfl, rfl⟩⟩)
  · exact .inr (.inl ⟨by simp, .crcVrfy, rfl, fun _ => ⟨rfl, rfl⟩⟩)
  · exact .inl ⟨by simp, .frmEnc, rfl, rfl, rfl⟩
  · exact .inl ⟨by simp, .frmDec, rfl, rfl, rfl⟩
  · exact .inr (.inl ⟨by simp, .cnvCo2, rfl, fun _ => ⟨rfl, rfl⟩⟩)
  · exact .inr (.inl ⟨by simp, .cnvTmp, rfl, fun _ => ⟨rfl, rfl⟩⟩)
  · exact .inr (.inl ⟨by simp, .cnvHum, rfl, fun _ => ⟨rfl, rfl⟩⟩)
  · exact .inr (.inl ⟨by simp, .cnvRdy, rfl, fun _ => ⟨rfl, rfl⟩⟩)
  · exact .inl ⟨by simp, .cnvAll, rfl, rfl, rfl⟩
  iterate 5 exact .inr (.inr ⟨by simp, rfl⟩)
  · exact .inl ⟨by simp, .clr, rfl, rfl, rfl⟩

/-! ## The decoder and the encoder are inverse -/

/-- A byte the decoder accepts is the encoding of the well-formed command it decodes to. -/
theorem wellFormed_encode_of_decode {c : Byte} {i : Instr} (h : decode c = .ok i) :
    i.wellFormed = true ∧ encode i = c := by
  rcases decode_cases c with ⟨-, j, hdecode, hwf, hencode⟩ | ⟨-, f, hdecode, hf⟩ | ⟨-, hdecode⟩ <;> rw [hdecode] at h
  case inl =>
    obtain ⟨hlow, rfl⟩ := (decodeN_ok_iff _ _ _).1 h
    exact ⟨hwf, hencode.trans (encodeN_op hlow)⟩
  case inr.inl =>
    obtain ⟨hmiddle, hr, rfl⟩ := (decodeR_ok_iff _ _ _).1 h
    obtain ⟨hwf, hencode⟩ := hf ((c.extractLsb' 0 4).extractLsb' 0 2)
    exact ⟨hwf.trans ((WordIdx.wellFormed_iff _).2 hr), hencode.trans (encodeR_op hmiddle)⟩
  case inr.inr => cases h

/-- A format-R command whose three bytes are read back is read back for every field that names a register. -/
theorem decode_encode_of_wordIdx (f : WordIdx → Instr) {r : WordIdx} (hr : WordIdx.wellFormed r = true)
    (h0 : decode (encode (f 0)) = .ok (f 0)) (h1 : decode (encode (f 1)) = .ok (f 1))
    (h2 : decode (encode (f 2)) = .ok (f 2)) : decode (encode (f r)) = .ok (f r) := by
  rcases Machine.wordIdx_cases r with rfl | rfl | rfl | rfl
  · exact h0
  · exact h1
  · exact h2
  · exact absurd rfl ((WordIdx.wellFormed_iff _).1 hr)

/-- The decoder gives a well-formed command back from its encoding. -/
theorem decode_encode (i : Instr) (hwf : i.wellFormed = true) : decode (encode i) = .ok i := by
  cases i with
  | nop | frmEnc | frmDec | cnvAll | clr => rfl
  | crcCalc r => exact decode_encode_of_wordIdx .crcCalc hwf rfl rfl rfl
  | crcVrfy r => exact decode_encode_of_wordIdx .crcVrfy hwf rfl rfl rfl
  | cnvCo2 r => exact decode_encode_of_wordIdx .cnvCo2 hwf rfl rfl rfl
  | cnvTmp r => exact decode_encode_of_wordIdx .cnvTmp hwf rfl rfl rfl
  | cnvHum r => exact decode_encode_of_wordIdx .cnvHum hwf rfl rfl rfl
  | cnvRdy r => exact decode_encode_of_wordIdx .cnvRdy hwf rfl rfl rfl

/-- Settles O2: every well-formed command is read back from its byte, and `decode_cases` bounds what is accepted. -/
theorem decodeInvertsEncode : Obligations.DecodeInvertsEncode :=
  ⟨decode_encode, fun _ _ => wellFormed_encode_of_decode⟩

/-! ## The opcode map -/

theorem decode_ok_iff (c : Byte) (i : Instr) : decode c = .ok i ↔ i.wellFormed = true ∧ encode i = c :=
  ⟨wellFormed_encode_of_decode, fun ⟨hwf, hencode⟩ => hencode ▸ decode_encode i hwf⟩

/-- A command without operand is selected by its one byte. -/
theorem decode_ok_iff_eq (c : Byte) {i : Instr} {k : Byte} (hwf : i.wellFormed = true) (hencode : encode i = k) :
    decode c = .ok i ↔ c = k := by
  rw [decode_ok_iff, hencode, eq_comm (a := c)]
  exact and_iff_right hwf

/-- A command with operand `r` is selected by the byte of its operation code plus `r`, when `r` names a register. -/
theorem decode_ok_iff_eq_add (c : Byte) {f : WordIdx → Instr} {op : BitVec 4}
    (hwf : ∀ r, (f r).wellFormed = WordIdx.wellFormed r) (hencode : ∀ r, encode (f r) = encodeR op r) (r : WordIdx) :
    decode c = .ok (f r) ↔ r ≠ 3 ∧ c = encodeN op + r.setWidth 8 := by
  rw [decode_ok_iff, hwf, hencode, WordIdx.wellFormed_iff, encodeR_eq_add, eq_comm (a := c)]

/-- Settles O1: format N and format R, for each command of the map. -/
theorem decodeFollowsTheOpcodeMap : Obligations.DecodeFollowsTheOpcodeMap := fun c =>
  ⟨decode_ok_iff_eq c rfl rfl,
    decode_ok_iff_eq_add c (f := .crcCalc) (fun _ => rfl) fun _ => rfl,
    decode_ok_iff_eq_add c (f := .crcVrfy) (fun _ => rfl) fun _ => rfl,
    decode_ok_iff_eq c rfl rfl,
    decode_ok_iff_eq c rfl rfl,
    decode_ok_iff_eq_add c (f := .cnvCo2) (fun _ => rfl) fun _ => rfl,
    decode_ok_iff_eq_add c (f := .cnvTmp) (fun _ => rfl) fun _ => rfl,
    decode_ok_iff_eq_add c (f := .cnvHum) (fun _ => rfl) fun _ => rfl,
    decode_ok_iff_eq_add c (f := .cnvRdy) (fun _ => rfl) fun _ => rfl,
    decode_ok_iff_eq c rfl rfl,
    decode_ok_iff_eq c rfl rfl⟩

/-- Settles O4: each of the eight bytes is the encoding of its command. -/
theorem sampleCommandBytes : Obligations.SampleCommandBytes :=
  ⟨decode_encode .nop rfl, decode_encode (.crcCalc 1) rfl, decode_encode (.crcVrfy 2) rfl, decode_encode .frmEnc rfl,
    decode_encode .frmDec rfl, decode_encode (.cnvTmp 1) rfl, decode_encode .cnvAll rfl, decode_encode .clr rfl⟩

end Sys2Proof

/-! PROOFS. The illegal bytes: which they are, how many, and what one written to `CMD` does (spec/30_encoding.md R65,
spec/60_exceptions.md R153). -/

namespace Sys2Proof

theorem exists_eq_error_iff {ε α : Type} (x : Except ε α) : (∃ e, x = .error e) ↔ ∀ a, x ≠ .ok a := by
  cases x <;> simp

/-- Format N refuses a byte exactly when its low bits are not zero. -/
theorem decodeN_error_iff (low : BitVec 4) (i : Instr) : (∃ e, decodeN low i = .error e) ↔ 0 < low.toNat := by
  have hzero : ¬low = 0 ↔ 0 < low.toNat := by
    revert low
    decide
  simp only [exists_eq_error_iff, ne_eq, decodeN_ok_iff]
  rw [← hzero]
  exact ⟨fun h hlow => h i ⟨hlow, rfl⟩, fun h _ ⟨hlow, _⟩ => h hlow⟩

/-- Format R refuses a byte exactly when its low bits are 3 or more: bits 3:2 not zero, or `r` = 3. -/
theorem decodeR_error_iff (low : BitVec 4) (f : WordIdx → Instr) :
    (∃ e, decodeR low f = .error e) ↔ 3 ≤ low.toNat := by
  have hlow : ¬(low.extractLsb' 2 2 = 0 ∧ low.extractLsb' 0 2 ≠ 3) ↔ 3 ≤ low.toNat := by
    revert low
    decide
  simp only [exists_eq_error_iff, ne_eq, decodeR_ok_iff]
  rw [← hlow]
  exact ⟨fun h ⟨hmiddle, hr⟩ => h _ ⟨hmiddle, hr, rfl⟩, fun h _ ⟨hmiddle, hr, _⟩ => h ⟨hmiddle, hr⟩⟩

/-- The bytes the decoder refuses are those of R65's list, format by format. -/
theorem decode_error_iff_listedIllegal (c : Byte) : (∃ e, decode c = .error e) ↔ Machine.listedIllegal c := by
  have hbyte : c.toNat < 256 := c.isLt
  rcases decode_cases c with ⟨hop, i, hdecode, -⟩ | ⟨hop, f, hdecode, -⟩ | ⟨hop, hdecode⟩ <;>
    simp only [op_toNat, List.mem_cons, List.not_mem_nil, or_false] at hop <;>
    simp only [hdecode, Machine.listedIllegal, List.mem_cons, List.not_mem_nil, or_false]
  · rw [decodeN_error_iff, low_toNat]
    omega
  · rw [decodeR_error_iff, low_toNat]
    omega
  · refine iff_of_true ⟨_, rfl⟩ ?_
    omega

end Sys2Proof

namespace Sys2Proof.Machine

set_option maxRecDepth 20000 in
/-- The bytes of R65 are counted one by one. -/
theorem card_listedIllegal : Nat.card { c : BitVec 8 // listedIllegal c } = 233 := by
  unfold listedIllegal
  rw [Nat.card_eq_fintype_card]
  decide

/-- A step that serves an illegal byte raises `IllegalCommand` (R153). -/
theorem step_illegalByte {s : State} {c : BitVec 8} {e : IllegalByte} {rest : List HostAction}
    (hpending : s.pending = .write cmdReg c.toNat :: rest) (hdecode : decode c = .error e) :
    step s = .next { s with pending := rest, blk := raise .illegalCommand s.blk } := by
  have hcut : commandByte c.toNat = c := by simp [commandByte]
  rw [step_serve hpending, serve_command, hcut]
  exact command_illegal hdecode _

/-- Settles O3: the list is what the decoder refuses, it is counted, and each of its bytes raises `IllegalCommand`. -/
theorem illegalBytesOnlySetEcode : Obligations.IllegalBytesOnlySetEcode := by
  refine ⟨decode_error_iff_listedIllegal, card_listedIllegal, fun s c rest hpending hlisted => ?_⟩
  obtain ⟨e, hdecode⟩ := (decode_error_iff_listedIllegal c).2 hlisted
  exact step_illegalByte hpending hdecode

end Sys2Proof.Machine

/-! PROOFS. One round of the checksum and its powers (spec/40_crc.md R81, R82, R86): a round loses nothing, and the rounds of
`0x01`, the powers of `x` modulo the polynomial, do not come back to `0x01` within the 24 bits of a group. -/

namespace Sys2Proof.Machine

/-- Every bit of a round: the bit below it, and bit 7 where the polynomial has a coefficient. -/
theorem crc8Round_getElem (c : BitVec 8) {i : Nat} (hi : i < 8) :
    (crc8Round c)[i] = ((decide (0 < i) && c.getLsbD (i - 1)) ^^ (c.getLsbD 7 && crcPoly.getLsbD i)) := by
  rw [← BitVec.getLsbD_eq_getElem, crc8Round_eq, BitVec.getLsbD_xor, BitVec.getLsbD_shiftLeft]
  congr 1
  · simp [hi, Nat.pos_iff_ne_zero]
  · cases c.getLsbD 7 <;> simp

/-- Settles O27: the polynomial has the coefficients 0, 4 and 5. -/
theorem crcRoundBitEquations : Obligations.CrcRoundBitEquations := by
  intro c
  simp [crc8Round_getElem, crcPoly]

/-- Bit 0 of a round is bit 7 of the register, and with it known every other bit gives one bit of the register. -/
theorem crc8Round_injective : Function.Injective crc8Round := by
  intro a b h
  have hbit {i : Nat} (hi : i < 8) : (crc8Round a)[i] = (crc8Round b)[i] := by rw [h]
  have htop : a.getLsbD 7 = b.getLsbD 7 := by simpa [crc8Round_getElem, crcPoly] using hbit (i := 0) (by decide)
  refine BitVec.eq_of_getLsbD_eq fun i hi => ?_
  rcases Nat.lt_succ_iff_lt_or_eq.1 hi with hlow | rfl
  · have hnext := hbit (Nat.succ_lt_succ hlow)
    rw [crc8Round_getElem, crc8Round_getElem, htop] at hnext
    simpa using hnext
  · exact htop

theorem crc8Rounds_eq_iterate (n : Nat) : crc8Rounds n = crc8Round^[n] := by
  induction n with
  | zero => rfl
  | succ n ih => rw [Function.iterate_succ, ← ih]; rfl

theorem crc8Rounds_injective (n : Nat) : Function.Injective (crc8Rounds n) :=
  crc8Rounds_eq_iterate n ▸ crc8Round_injective.iterate n

@[simp] theorem crc8Rounds_zero (n : Nat) : crc8Rounds n 0#8 = 0#8 := by
  rw [crc8Rounds_eq_iterate, Function.iterate_fixed rfl]

theorem crc8Rounds_one_ne_zero (n : Nat) : crc8Rounds n 1 ≠ 0#8 := fun h =>
  absurd (crc8Rounds_injective n (h.trans (crc8Rounds_zero n).symm)) (by decide)

/-- The order of `x` modulo the polynomial is more than 23. -/
theorem crc8Rounds_one_eq_one : ∀ n < 24, crc8Rounds n 1 = 1 → n = 0 := by decide

/-- Rounds that lose nothing cancel. -/
theorem crc8Rounds_sub_eq_self {m n : Nat} {c : BitVec 8} (h : crc8Rounds m c = crc8Rounds n c) :
    crc8Rounds (m - n) c = c := by
  simp only [crc8Rounds_eq_iterate] at h ⊢
  exact Function.iterate_cancel crc8Round_injective h

/-- Equal powers of `x` cancel to a power that is one, so the first 24 are distinct. -/
theorem crc8Rounds_one_inj {p q : Nat} (hp : p < 24) (hq : q < 24) (h : crc8Rounds p 1 = crc8Rounds q 1) : p = q := by
  have hpq : p - q = 0 := crc8Rounds_one_eq_one _ (by omega) (crc8Rounds_sub_eq_self h)
  have hqp : q - p = 0 := crc8Rounds_one_eq_one _ (by omega) (crc8Rounds_sub_eq_self h.symm)
  omega

end Sys2Proof.Machine

/-! PROOFS. The checksum of a word: its table form, its affine form, and how many words share a value
(spec/40_crc.md R83, R84, R87, R90). -/

namespace Sys2Proof.Machine

/-! ## Values the rules give -/

set_option maxRecDepth 20000 in
/-- The corner values of R88 to R90. -/
theorem crc8_values : crc8 0x0000 = 0x81 ∧ crc8 0xFF00 = 0x00 ∧ crc8 0xFFFF = 0xAC ∧ crc8 0xBEEF = 0x92 := by decide

/-! ## Table form and residue -/

/-- A byte's step depends on the XOR of the register and the byte only. -/
theorem crc8Byte_eq_table (c d : BitVec 8) : crc8Byte c d = crc8Byte 0x00 (c ^^^ d) :=
  congrArg (crc8Rounds 8) BitVec.zero_xor.symm

/-- Settles O28: each byte's step of a word's checksum is a table step. -/
theorem crcTableForm : Obligations.CrcTableForm := by
  refine ⟨crc8Byte_eq_table, fun w => ?_, by decide, by decide, by decide⟩
  rw [← crc8Byte_eq_table, ← crc8Byte_eq_table]
  rfl

/-- Settles O29: the register XORed with itself is zero, and zero stays zero. -/
theorem crcVerifiesItself : Obligations.CrcVerifiesItself := by
  refine fun w => ⟨beq_self_eq_true _, ?_⟩
  rw [crc8Byte, BitVec.xor_self]
  exact crc8Rounds_zero 8

/-! ## Affine form -/

theorem hiByte_xor (a b : BitVec 16) : hiByte (a ^^^ b) = hiByte a ^^^ hiByte b := BitVec.extractLsb'_xor

theorem loByte_xor (a b : BitVec 16) : loByte (a ^^^ b) = loByte a ^^^ loByte b := BitVec.extractLsb'_xor

/-- The linear part of `crc8`: the checksum from the register value zero. -/
def crc8Linear (w : BitVec 16) : BitVec 8 := crc8Byte (crc8Byte 0x00 (hiByte w)) (loByte w)

/-- The initial value adds the same constant to the checksum of every word. -/
theorem crc8_eq_linear_xor (w : BitVec 16) : crc8 w = crc8Linear w ^^^ crc8 0x0000 := by
  have hhi : hiByte 0#16 = 0#8 := rfl
  have hlo : loByte 0#16 = 0#8 := rfl
  simp only [crc8, crc8Linear, hhi, hlo, crc8Byte_eq, crc8Rounds_xor, BitVec.ofNat_eq_ofNat, crc8Rounds_zero,
    BitVec.zero_xor, BitVec.xor_zero]
  rw [BitVec.xor_assoc, BitVec.xor_comm]

theorem crc8Linear_xor (a b : BitVec 16) : crc8Linear (a ^^^ b) = crc8Linear a ^^^ crc8Linear b := by
  simp only [crc8Linear, hiByte_xor, loByte_xor, crc8Byte_eq, crc8Rounds_xor, BitVec.ofNat_eq_ofNat, crc8Rounds_zero,
    BitVec.zero_xor]
  ac_rfl

/-- Flipping the bits `e` of a word flips the bits `crc8Linear e` of its checksum. -/
theorem crc8_xor_linear (w e : BitVec 16) : crc8 (w ^^^ e) = crc8 w ^^^ crc8Linear e := by
  rw [crc8_eq_linear_xor, crc8_eq_linear_xor w, crc8Linear_xor]
  generalize crc8 0x0000 = k
  ac_rfl

/-- Settles O30: the second word flips its linear part, which is its checksum without the constant. -/
theorem crcIsAffine : Obligations.CrcIsAffine := by
  refine ⟨crc8_values.1, fun a b => ?_⟩
  rw [crc8_xor_linear, crc8_eq_linear_xor b, BitVec.xor_assoc, BitVec.xor_assoc, BitVec.xor_self, BitVec.xor_zero]

/-! ## How many words have one checksum -/

theorem crc8Byte_injective (c : BitVec 8) : Function.Injective (crc8Byte c) := fun _ _ h =>
  (BitVec.xor_right_inj c).1 (crc8Rounds_injective 8 h)

theorem crc8Byte_surjective (c : BitVec 8) : Function.Surjective (crc8Byte c) :=
  Finite.surjective_of_injective (crc8Byte_injective c)

/-- A word is its two bytes. -/
theorem eq_of_hiByte_eq_loByte_eq {a b : BitVec 16} (hhi : hiByte a = hiByte b) (hlo : loByte a = loByte b) : a = b := by
  rw [← joinBytes_hi_lo a, hhi, hlo, joinBytes_hi_lo]

/-- A high byte and a checksum leave exactly one low byte. -/
theorem hiByte_bijective_of_crc8_eq (k : BitVec 8) :
    Function.Bijective fun w : { w : BitVec 16 // crc8 w = k } => hiByte w.1 := by
  constructor
  · rintro ⟨w, hw⟩ ⟨w', hw'⟩ (hhi : hiByte w = hiByte w')
    have hcrc : crc8 w = crc8 w' := hw.trans hw'.symm
    rw [crc8, crc8, hhi] at hcrc
    exact Subtype.ext (eq_of_hiByte_eq_loByte_eq hhi (crc8Byte_injective _ hcrc))
  · intro h
    obtain ⟨l, hl⟩ := crc8Byte_surjective (crc8Byte crcInit h) k
    exact ⟨⟨joinBytes h l, (crc8_joinBytes h l).trans hl⟩, hiByte_joinBytes h l⟩

/-- Settles O32: the words of a checksum are as many as the high bytes. -/
theorem crcTakesEachValue256Times : Obligations.CrcTakesEachValue256Times := fun k =>
  calc Nat.card { w : BitVec 16 // crc8 w = k }
    _ = Nat.card (BitVec 8) := Nat.card_eq_of_bijective _ (hiByte_bijective_of_crc8_eq k)
    _ = Nat.card (Fin 256) := Nat.card_congr BitVec.equivFin.toEquiv
    _ = 256 := Nat.card_fin 256

end Sys2Proof.Machine

/-! PROOFS. Flipped bits of a group (spec/40_crc.md R90 (b), (c)). -/

namespace Sys2Proof.Machine

/-- What the flipped bits `e` of a group add to the difference of its two checksums: the one computed from its word and the
one it carries. -/
def errorSyndrome (e : BitVec 24) : BitVec 8 := crc8Linear (e.extractLsb' 8 16) ^^^ e.extractLsb' 0 8

/-- A good group with the bits `e` flipped verifies exactly when the syndrome of `e` is zero. -/
theorem groupVerifies_xor_iff (w : BitVec 16) (e : BitVec 24) :
    groupVerifies ((w ++ crc8 w : BitVec 24) ^^^ e) = true ↔ errorSyndrome e = 0#8 := by
  have hword : (w ++ crc8 w : BitVec 24).extractLsb' 8 16 = w := BitVec.extractLsb'_append_eq_left
  have hcrc : (w ++ crc8 w : BitVec 24).extractLsb' 0 8 = crc8 w := BitVec.extractLsb'_append_eq_right
  rw [groupVerifies, crc8Ok, beq_iff_eq, BitVec.extractLsb'_xor, BitVec.extractLsb'_xor, hword, hcrc, crc8_xor_linear,
    BitVec.xor_right_inj, errorSyndrome, BitVec.xor_eq_zero_iff]

theorem errorSyndrome_xor (d e : BitVec 24) : errorSyndrome (d ^^^ e) = errorSyndrome d ^^^ errorSyndrome e := by
  simp only [errorSyndrome, BitVec.extractLsb'_xor, crc8Linear_xor]
  ac_rfl

set_option maxRecDepth 20000 in
/-- The syndrome of one bit of a group is its power of `x`. -/
theorem errorSyndrome_one_shiftLeft : ∀ p < 24, errorSyndrome (1#24 <<< p) = crc8Rounds p 1 := by decide

/-- Settles O31: the power of `x` of one flipped bit is not zero, and those of two flipped bits differ. -/
theorem crcDetectsOneAndTwoBitFlips : Obligations.CrcDetectsOneAndTwoBitFlips := by
  intro w p q hp hq
  refine ⟨Bool.eq_false_iff.2 fun h => ?_, fun hne => Bool.eq_false_iff.2 fun h => hne ?_⟩
  · rw [groupVerifies_xor_iff, errorSyndrome_one_shiftLeft p hp] at h
    exact crc8Rounds_one_ne_zero p h
  · rw [BitVec.xor_assoc, groupVerifies_xor_iff, errorSyndrome_xor, errorSyndrome_one_shiftLeft p hp,
      errorSyndrome_one_shiftLeft q hq, BitVec.xor_eq_zero_iff] at h
    exact crc8Rounds_one_inj hp hq h

end Sys2Proof.Machine

/-! PROOFS. The commands `CRC.CALC` and `CRC.VRFY` (spec/40_crc.md R88, R89). -/

namespace Sys2Proof.Machine

/-- A format-R command whose field names a word register completes on that register. -/
theorem onWord_of_ne_three {r : BitVec 2} (hr : r ≠ 3) (s : State) (f : BitVec 16 → Block → Block) :
    onWord r s f = .next (s.withBlk (f (namedWord s.blk r) s.blk)) := by
  rcases wordIdx_cases r with rfl | rfl | rfl | rfl
  · rfl
  · rfl
  · rfl
  · exact absurd rfl hr

/-- `ECODE` 0 is its three bits cleared. -/
theorem setEcode_ok (st : BitVec 8) : setEcode st .ok = st &&& 0xF8 := by simp [setEcode, ErrorCode.bits]

/-- `MATCH` written and `ECODE` cleared, as one mask. -/
theorem setEcode_ok_setMatch (st : BitVec 8) (v : Bool) :
    setEcode (setMatch st v) .ok = (st &&& 0xE8) ||| (if v then 0x10 else 0x00) := by
  rw [setEcode_ok, setMatch, BitVec.and_or_distrib_right, BitVec.and_assoc]
  cases v <;> rfl

/-- Settles O33: format R on the named word, and the rule's corner values. -/
theorem crcCalcWritesTheChecksum : Obligations.CrcCalcWritesTheChecksum := by
  refine ⟨fun c => decode_ok_iff_eq_add c (f := .crcCalc) (fun _ => rfl) fun _ => rfl, fun s r hr => ?_, crc8_values⟩
  rw [exec_crcCalc, onWord_of_ne_three hr, succeed, setEcode_ok]
  rfl

/-- Settles O34: format R on the named word, with the comparison in `MATCH`, and the rule's corner values. -/
theorem crcVrfyWritesMatch : Obligations.CrcVrfyWritesMatch := by
  refine ⟨fun c => decode_ok_iff_eq_add c (f := .crcVrfy) (fun _ => rfl) fun _ => rfl, fun s r hr => ?_, ?_⟩
  · rw [exec_crcVrfy, onWord_of_ne_three hr, succeed, setEcode_ok_setMatch]
    simp only [crc8Ok, beq_iff_eq]
    rfl
  · obtain ⟨-, hff00, -, hbeef⟩ := crc8_values
    exact ⟨hff00, hbeef⟩

end Sys2Proof.Machine

/-! PROOFS. The framer on lists of bytes: the layout of a frame and the round trip (spec/41_frame.md R100, R102). -/

namespace Sys2Proof.Machine

/-! ## The layout of a frame -/

theorem encodeFrame_append (vs ws : List (BitVec 16)) : encodeFrame (vs ++ ws) = encodeFrame vs ++ encodeFrame ws := by
  induction vs with
  | nil => rfl
  | cons v vs ih => simp [encodeFrame, ih]

theorem encodeFrame_singleton (w : BitVec 16) : encodeFrame [w] = group w := rfl

/-- The group of the word of two bytes starts with those bytes. -/
theorem group_joinBytes (h l : BitVec 8) : group (joinBytes h l) = [h, l, crc8 (joinBytes h l)] := by
  simp [group]

/-- Word `i` of a frame stands at bytes `3i` to `3i+2` (R67). -/
theorem encodeFrame_getElem? {ws : List (BitVec 16)} {i : Nat} {w : BitVec 16} (h : ws[i]? = some w) :
    (encodeFrame ws)[3 * i]? = some (hiByte w) ∧ (encodeFrame ws)[3 * i + 1]? = some (loByte w) ∧
      (encodeFrame ws)[3 * i + 2]? = some (crc8 w) := by
  induction ws generalizing i with
  | nil => simp at h
  | cons v vs ih =>
    cases i with
    | zero =>
      cases h
      exact ⟨rfl, rfl, rfl⟩
    | succ i => exact ih h

/-- Settles O35: word by word. -/
theorem encodedFrameLayout : Obligations.EncodedFrameLayout :=
  ⟨rfl, fun ws _ => ⟨encodeFrame_length ws, fun _ _ => encodeFrame_getElem?⟩⟩

/-! ## One group of `decode` -/

section

variable {h l k : BitVec 8}

theorem decodeGroups_good (hgood : crc8 (joinBytes h l) = k) (rest : List (BitVec 8)) (i : Nat) (ws : List (BitVec 16)) :
    decodeGroups (h :: l :: k :: rest) i ws = decodeGroups rest (i + 1) (ws ++ [joinBytes h l]) :=
  if_neg (not_not_intro hgood)

theorem decodeGroups_bad (hbad : crc8 (joinBytes h l) ≠ k) (rest : List (BitVec 8)) (i : Nat) (ws : List (BitVec 16)) :
    decodeGroups (h :: l :: k :: rest) i ws = .badChecksum i :=
  if_pos hbad

end

/-- The group of a word is good, and `decode` goes on behind it. -/
theorem decodeGroups_group (w : BitVec 16) (rest : List (BitVec 8)) (i : Nat) (ws : List (BitVec 16)) :
    decodeGroups (group w ++ rest) i ws = decodeGroups rest (i + 1) (ws ++ [w]) := by
  have hgood := decodeGroups_good (congrArg crc8 (joinBytes_hi_lo w)) rest i ws
  rwa [joinBytes_hi_lo] at hgood

/-- A list of `n` groups passes the length test when no other count is expected. -/
theorem decodeFrame_of_length {bs : List (BitVec 8)} {expect : Option Nat} {n : Nat} (hlen : bs.length = 3 * n)
    (hn : n ≤ 3) (hexpect : ∀ k ∈ expect, k = n) : decodeFrame bs expect = decodeGroups bs 0 [] := by
  refine if_neg fun hbad => ?_
  rcases (badFrameLength_iff _ _).1 hbad with h | h | ⟨k, hk, h⟩
  · omega
  · omega
  · exact h (by rw [hlen, hexpect k hk])

/-! ## The round trip -/

/-- All groups of a frame are good. -/
theorem decodeGroups_encodeFrame (ws : List (BitVec 16)) (i : Nat) (acc : List (BitVec 16)) :
    decodeGroups (encodeFrame ws) i acc = .words (acc ++ ws) := by
  induction ws generalizing i acc with
  | nil => simp [encodeFrame, decodeGroups]
  | cons w ws ih => rw [encodeFrame, decodeGroups_group, ih, List.append_assoc, List.singleton_append]

theorem decodeFrame_encodeFrame {ws : List (BitVec 16)} {expect : Option Nat} (hn : ws.length ≤ 3)
    (hexpect : ∀ k ∈ expect, k = ws.length) : decodeFrame (encodeFrame ws) expect = .words ws := by
  rw [decodeFrame_of_length (encodeFrame_length ws) hn hexpect, decodeGroups_encodeFrame, List.nil_append]

/-- A list without a first group is short. -/
theorem length_lt_three_of_no_group {bs : List (BitVec 8)} (hshort : ∀ h l k rest, bs = h :: l :: k :: rest → False) :
    bs.length < 3 := by
  match bs with
  | [] | [_] | [_, _] => simp
  | h :: l :: k :: rest => exact (hshort h l k rest rfl).elim

/-- Whole groups that all decode are the frame of the words they add. -/
theorem encodeFrame_of_decodeGroups {bs : List (BitVec 8)} {i : Nat} {acc ws : List (BitVec 16)}
    (hlen : bs.length % 3 = 0) (hdec : decodeGroups bs i acc = .words ws) : encodeFrame ws = encodeFrame acc ++ bs := by
  fun_induction decodeGroups bs i acc with
  | case1 => cases hdec
  | case2 h l k rest i acc hgood ih =>
    have hk : crc8 (joinBytes h l) = k := not_not.1 hgood
    rw [ih (by simp at hlen; omega) hdec, encodeFrame_append, encodeFrame_singleton, group_joinBytes, hk,
      List.append_assoc]
    rfl
  | case3 bs i acc hshort =>
    cases hdec
    have hlt := length_lt_three_of_no_group hshort
    have hnil : bs = [] := List.eq_nil_of_length_eq_zero (by omega)
    rw [hnil, List.append_nil]

/-- Settles O37: group by group, in both directions. -/
theorem frameRoundTrip : Obligations.FrameRoundTrip := by
  refine ⟨fun ws hn => ⟨decodeFrame_encodeFrame hn nofun, decodeFrame_encodeFrame hn ?_⟩, fun bs ws hdec => ?_⟩
  · rintro _ ⟨⟩
    rfl
  · cases hbad : badFrameLength bs.length none with
    | true => simp [decodeFrame, hbad] at hdec
    | false =>
      have hlen : bs.length % 3 = 0 := by
        have := (groups_of_length hbad).1
        omega
      have hgroups : decodeGroups bs 0 [] = .words ws := by simpa [decodeFrame, hbad] using hdec
      exact encodeFrame_of_decodeGroups hlen hgroups

end Sys2Proof.Machine

/-! PROOFS. A flipped bit of a frame: its group does not match, and the groups before it do (spec/41_frame.md R106). -/

namespace Sys2Proof.Machine

/-! ## One byte of a group -/

theorem crc8Byte_left_injective (d : BitVec 8) : Function.Injective fun c => crc8Byte c d := fun _ _ h =>
  (BitVec.xor_left_inj d).1 (crc8Rounds_injective 8 h)

/-- Words that share the low byte and the checksum are equal, so a changed high byte changes the checksum. -/
theorem crc8_joinBytes_inj_left {h h' l : BitVec 8} (he : crc8 (joinBytes h l) = crc8 (joinBytes h' l)) : h = h' := by
  rw [crc8_joinBytes, crc8_joinBytes] at he
  exact crc8Byte_injective crcInit (crc8Byte_left_injective l he)

theorem crc8_joinBytes_inj_right {h l l' : BitVec 8} (he : crc8 (joinBytes h l) = crc8 (joinBytes h l')) : l = l' := by
  rw [crc8_joinBytes, crc8_joinBytes] at he
  exact crc8Byte_injective _ he

/-- A flipped bit changes its byte. -/
theorem flip_ne_self (v : BitVec 8) (p : Nat) : v ^^^ (1#8 <<< (p % 8)) ≠ v := by
  have hmask : ∀ k < 8, 1#8 <<< k ≠ 0#8 := by decide
  simpa using hmask (p % 8) (Nat.mod_lt p (by decide))

/-! ## The flipped group and those around it -/

/-- A bit of the first group flipped: `decode` stops there. -/
theorem decodeGroups_flipBit_group (w : BitVec 16) (rest : List (BitVec 8)) {p : Nat} (hp : p < 24) (i : Nat)
    (acc : List (BitVec 16)) : decodeGroups (flipBit (group w ++ rest) p) i acc = .badChecksum i := by
  have hcrc : crc8 (joinBytes (hiByte w) (loByte w)) = crc8 w := congrArg crc8 (joinBytes_hi_lo w)
  have hbyte : p / 8 = 0 ∨ p / 8 = 1 ∨ p / 8 = 2 := by omega
  unfold flipBit
  rcases hbyte with h | h | h <;> rw [h]
  · exact decodeGroups_bad (fun he => flip_ne_self _ p (crc8_joinBytes_inj_left (he.trans hcrc.symm))) _ _ _
  · exact decodeGroups_bad (fun he => flip_ne_self _ p (crc8_joinBytes_inj_right (he.trans hcrc.symm))) _ _ _
  · exact decodeGroups_bad (fun he => flip_ne_self _ p (he.symm.trans hcrc)) _ _ _

/-- A bit behind the first group flipped. -/
theorem flipBit_group_append (w : BitVec 16) (rest : List (BitVec 8)) (p : Nat) :
    flipBit (group w ++ rest) (p + 24) = group w ++ flipBit rest p := by
  have hbyte : (p + 24) / 8 = p / 8 + 3 := by omega
  have hbit : (p + 24) % 8 = p % 8 := by omega
  rw [flipBit, hbyte, hbit]
  rfl

/-- The groups before the flipped bit are good and its own group is not. -/
theorem decodeGroups_flipBit_encodeFrame {ws : List (BitVec 16)} {p : Nat} (hp : p < 24 * ws.length) (i : Nat)
    (acc : List (BitVec 16)) : decodeGroups (flipBit (encodeFrame ws) p) i acc = .badChecksum (i + p / 24) := by
  induction ws generalizing p i acc with
  | nil => simp at hp
  | cons w ws ih =>
    rw [encodeFrame]
    rcases Nat.lt_or_ge p 24 with hfirst | hlater
    · rw [decodeGroups_flipBit_group w _ hfirst, Nat.div_eq_of_lt hfirst, Nat.add_zero]
    · obtain ⟨q, rfl⟩ := Nat.exists_eq_add_of_le' hlater
      have hq : q < 24 * ws.length := by
        rw [List.length_cons] at hp
        omega
      have hgroup : i + 1 + q / 24 = i + (q + 24) / 24 := by omega
      rw [flipBit_group_append, decodeGroups_group, ih hq, hgroup]

theorem flipBit_length (bs : List (BitVec 8)) (p : Nat) : (flipBit bs p).length = bs.length := List.length_modify ..

theorem decodeFrame_flipBit_encodeFrame {ws : List (BitVec 16)} {expect : Option Nat} {p : Nat} (hn : ws.length ≤ 3)
    (hexpect : ∀ k ∈ expect, k = ws.length) (hp : p < 24 * ws.length) :
    decodeFrame (flipBit (encodeFrame ws) p) expect = .badChecksum (p / 24) := by
  have hlen : (flipBit (encodeFrame ws) p).length = 3 * ws.length := (flipBit_length _ p).trans (encodeFrame_length ws)
  rw [decodeFrame_of_length hlen hn hexpect, decodeGroups_flipBit_encodeFrame hp, Nat.zero_add]

/-- Settles O38: with no count expected. -/
theorem singleBitFlipIsReported : Obligations.SingleBitFlipIsReported := fun _ _ _ hn hp =>
  decodeFrame_flipBit_encodeFrame hn nofun hp

end Sys2Proof.Machine

/-! PROOFS. The three outcomes of `decode`, each exactly when (spec/41_frame.md R101). -/

namespace Sys2Proof.Machine

/-- The word of group `i` of a byte list. -/
def frameWord (bs : List (BitVec 8)) (i : Nat) : BitVec 16 := joinBytes (bs.getD (3 * i) 0) (bs.getD (3 * i + 1) 0)

/-- Group `i` of a byte list carries the checksum of its word. -/
def frameGood (bs : List (BitVec 8)) (i : Nat) : Prop := crc8 (frameWord bs i) = bs.getD (3 * i + 2) 0

/-- `FrameOutcome bs expect r`: what R101 asks of a list for `decode` to answer `r`. -/
inductive FrameOutcome (bs : List (BitVec 8)) (expect : Option Nat) : FrameResult → Prop
  | badLength (hlen : badFrameLength bs.length expect = true) : FrameOutcome bs expect .badLength
  | badChecksum (hlen : badFrameLength bs.length expect = false) (i : Nat) (hi : i < bs.length / 3)
      (hbad : ¬frameGood bs i) (hgood : ∀ j < i, frameGood bs j) : FrameOutcome bs expect (.badChecksum i)
  | words (hlen : badFrameLength bs.length expect = false) (hgood : ∀ i < bs.length / 3, frameGood bs i) :
      FrameOutcome bs expect (.words ((List.range (bs.length / 3)).map (frameWord bs)))

/-! ## Groups behind the first -/

section

variable (h l k : BitVec 8) (rest : List (BitVec 8))

theorem frameWord_group_succ (i : Nat) : frameWord (h :: l :: k :: rest) (i + 1) = frameWord rest i := rfl

theorem frameGood_group_succ (i : Nat) : frameGood (h :: l :: k :: rest) (i + 1) ↔ frameGood rest i := Iff.rfl

theorem groups_group : (h :: l :: k :: rest).length / 3 = rest.length / 3 + 1 := by
  simp only [List.length_cons]
  omega

theorem words_group : (List.range ((h :: l :: k :: rest).length / 3)).map (frameWord (h :: l :: k :: rest)) =
    joinBytes h l :: (List.range (rest.length / 3)).map (frameWord rest) := by
  rw [groups_group, List.range_succ_eq_map, List.map_cons, List.map_map]
  rfl

end

/-! ## The outcome -/

/-- Every way the loop of `decode` can end: with the words of all groups, or at the first bad one. -/
theorem decodeGroups_cases (bs : List (BitVec 8)) (i : Nat) (ws : List (BitVec 16)) :
    ((∀ j < bs.length / 3, frameGood bs j) ∧
      decodeGroups bs i ws = .words (ws ++ (List.range (bs.length / 3)).map (frameWord bs))) ∨
    ∃ j < bs.length / 3, ¬frameGood bs j ∧ (∀ k < j, frameGood bs k) ∧ decodeGroups bs i ws = .badChecksum (i + j) := by
  fun_induction decodeGroups bs i ws with
  | case1 h l k rest i ws hbad =>
    exact .inr ⟨0, by rw [groups_group]; omega, hbad, nofun, rfl⟩
  | case2 h l k rest i ws hgood ih =>
    have hfirst : frameGood (h :: l :: k :: rest) 0 := not_not.1 hgood
    rcases ih with ⟨hall, he⟩ | ⟨j, hj, hbad, hbefore, he⟩
    · refine .inl ⟨?_, by rw [he, words_group, List.append_assoc, List.singleton_append]⟩
      rw [groups_group, Nat.forall_lt_succ_left]
      exact ⟨hfirst, hall⟩
    · refine .inr ⟨j + 1, by rw [groups_group]; omega, hbad, ?_, by rw [he, Nat.add_assoc, Nat.add_comm 1 j]⟩
      rw [Nat.forall_lt_succ_left]
      exact ⟨hfirst, hbefore⟩
  | case3 bs i ws hshort =>
    have hnone : bs.length / 3 = 0 := Nat.div_eq_of_lt (length_lt_three_of_no_group hshort)
    exact .inl ⟨by simp [hnone], by simp [hnone]⟩

theorem decodeFrame_outcome (bs : List (BitVec 8)) (expect : Option Nat) :
    FrameOutcome bs expect (decodeFrame bs expect) := by
  rw [decodeFrame]
  cases hlen : badFrameLength bs.length expect with
  | true => exact .badLength hlen
  | false =>
    rcases decodeGroups_cases bs 0 [] with ⟨hgood, he⟩ | ⟨i, hi, hbad, hgood, he⟩ <;>
      rw [if_neg Bool.false_ne_true, he]
    · exact .words hlen hgood
    · rw [Nat.zero_add]
      exact .badChecksum hlen i hi hbad hgood

/-- The conditions of the three outcomes exclude each other, and fix the index and the words. -/
theorem FrameOutcome.unique {bs : List (BitVec 8)} {expect : Option Nat} {r r' : FrameResult}
    (h : FrameOutcome bs expect r) (h' : FrameOutcome bs expect r') : r = r' := by
  cases h with
  | badLength hlen =>
    cases h' with
    | badLength => rfl
    | badChecksum hlen' | words hlen' => exact absurd (hlen.symm.trans hlen') (by decide)
  | badChecksum hlen i hi hbad hgood =>
    cases h' with
    | badLength hlen' => exact absurd (hlen.symm.trans hlen') (by decide)
    | badChecksum _ j _ hbad' hgood' =>
      rcases Nat.lt_trichotomy i j with hij | rfl | hji
      · exact absurd (hgood' i hij) hbad
      · rfl
      · exact absurd (hgood j hji) hbad'
    | words _ hgood' => exact absurd (hgood' i hi) hbad
  | words hlen hgood =>
    cases h' with
    | badLength hlen' => exact absurd (hlen.symm.trans hlen') (by decide)
    | badChecksum _ j hj hbad' => exact absurd (hgood j hj) hbad'
    | words => rfl

theorem decodeFrame_eq_iff {bs : List (BitVec 8)} {expect : Option Nat} {r : FrameResult} :
    decodeFrame bs expect = r ↔ FrameOutcome bs expect r :=
  ⟨fun h => h ▸ decodeFrame_outcome bs expect, (decodeFrame_outcome bs expect).unique⟩

/-- Settles O36: `decodeFrame_eq_iff` for each of the three outcomes. -/
theorem decodeOutcomes : Obligations.DecodeOutcomes := by
  intro bs expect L bad word good
  have hbadLength : badFrameLength bs.length expect = true ↔ bad := badFrameLength_iff _ _
  have hgoodLength : badFrameLength bs.length expect = false ↔ ¬bad := by rw [← hbadLength, Bool.not_eq_true]
  refine ⟨?_, fun i => ?_, fun ws => ?_⟩ <;> rw [decodeFrame_eq_iff]
  · rw [← hbadLength]
    exact ⟨fun | .badLength hlen => hlen, .badLength⟩
  · rw [← hgoodLength]
    exact ⟨fun | .badChecksum hlen _ hi hbad hgood => ⟨hlen, hi, hbad, hgood⟩,
      fun ⟨hlen, hi, hbad, hgood⟩ => .badChecksum hlen i hi hbad hgood⟩
  · rw [← hgoodLength]
    exact ⟨fun | .words hlen hgood => ⟨hlen, hgood, rfl⟩, fun ⟨hlen, hgood, hws⟩ => hws ▸ .words hlen hgood⟩

end Sys2Proof.Machine

/-! PROOFS. The command `FRM.ENC` (spec/41_frame.md R103, R108). -/

namespace Sys2Proof.Machine

/-- The checksum of the last word, when there is one. -/
theorem getLastD_map_crc8 (ws : List (BitVec 16)) (c : BitVec 8) :
    (ws.map crc8).getLastD c = if ws.length = 0 then c else crc8 (ws.getD (ws.length - 1) 0) := by
  induction ws generalizing c with
  | nil => rfl
  | cons w ws ih =>
    rw [List.map_cons, List.getLastD_cons, ih]
    cases ws <;> rfl

/-! ## What `FRM.ENC` frames -/

theorem frameWords_length (b : Block) : b.frameWords.length = b.wcnt.toNat := by
  have hn : b.wcnt.toNat < 4 := b.wcnt.isLt
  simp only [Block.frameWords, Block.words, List.length_take, List.length_cons, List.length_nil]
  omega

theorem frameWords_length_le (b : Block) : b.frameWords.length ≤ 3 :=
  (frameWords_length b).trans_le (Nat.le_of_lt_succ b.wcnt.isLt)

/-- The framed words are `WCNT` and the words below it (R12). -/
theorem frameWords_congr {b b' : Block} (hn : b'.wcnt = b.wcnt) (h0 : 1 ≤ b.wcnt.toNat → b'.w0 = b.w0)
    (h1 : 2 ≤ b.wcnt.toNat → b'.w1 = b.w1) (h2 : 3 ≤ b.wcnt.toNat → b'.w2 = b.w2) : b'.frameWords = b.frameWords := by
  simp only [Block.frameWords, Block.words, hn]
  rcases wordIdx_cases b.wcnt with h | h | h | h <;> rw [h] at h0 h1 h2 ⊢
  · rfl
  · rw [h0 (by decide)]
    rfl
  · rw [h0 (by decide), h1 (by decide)]
    rfl
  · rw [h0 (by decide), h1 (by decide), h2 (by decide)]

/-! ## The block it leaves -/

/-- The block after `FRM.ENC` with the buffer `m`. -/
def Block.afterEncode (b : Block) (m : Memory) : Block :=
  succeed { b with
    buf := m, crc := (b.frameWords.map crc8).getLastD b.crc, len := BitVec.ofNat 4 (3 * b.wcnt.toNat) }

/-- `HoldsFrame b m`: the buffer `m` is that of `b` with the frame of the words of `b` written from index 0. -/
def HoldsFrame (b : Block) (m : Memory) : Prop :=
  ∀ j, Memory.lookup m j =
    if j < 3 * b.wcnt.toNat then (encodeFrame b.frameWords).getD j 0 else Memory.lookup b.buf j

theorem exec_frmEnc_afterEncode (s : State) :
    ∃ m, exec .frmEnc s = .next (s.withBlk (s.blk.afterEncode m)) ∧ HoldsFrame s.blk m := by
  obtain ⟨m, he, -, hm⟩ := frmEnc_ok s.blk
  exact ⟨m, by rw [exec_frmEnc, he]; rfl, hm⟩

/-- `3*WCNT` fits the four bits of `LEN` (R103). -/
theorem afterEncode_len_toNat (b : Block) (m : Memory) : (b.afterEncode m).len.toNat = 3 * b.wcnt.toNat := by
  have hn : b.wcnt.toNat < 4 := b.wcnt.isLt
  exact Nat.mod_eq_of_lt (by omega)

set_option maxRecDepth 20000 in
/-- Settles O39: the block is `Block.afterEncode`, its `CRC` and `STATUS` written as the rule writes them. -/
theorem frmEncFramesTheWords : Obligations.FrmEncFramesTheWords := by
  refine ⟨fun c => decode_ok_iff_eq c rfl rfl, by decide, fun s => ?_⟩
  obtain ⟨m, he, hm⟩ := exec_frmEnc_afterEncode s
  refine ⟨m, ?_, hm⟩
  rw [he, Block.afterEncode, succeed, setEcode_ok, getLastD_map_crc8, frameWords_length]
  rfl

/-- Settles O45: the two runs frame the same words. -/
theorem frmEncReadsOnlyItsWords : Obligations.FrmEncReadsOnlyItsWords := by
  intro s s' t t' hn h0 h1 h2 h h'
  obtain ⟨m, he, hm⟩ := exec_frmEnc_afterEncode s
  obtain ⟨m', he', hm'⟩ := exec_frmEnc_afterEncode s'
  cases he.symm.trans h
  cases he'.symm.trans h'
  refine ⟨congrArg (fun n : BitVec 2 => BitVec.ofNat 4 (3 * n.toNat)) hn, fun k hk => ?_⟩
  rw [withBlk_blk, afterEncode_len_toNat] at hk
  have hframe : s'.blk.frameWords = s.blk.frameWords := frameWords_congr hn h0 h1 h2
  calc Memory.lookup m' k
    _ = (encodeFrame s'.blk.frameWords).getD k 0 := by rw [hm', hn, if_pos hk]
    _ = Memory.lookup m k := by rw [hframe, hm, if_pos hk]

/-- With no word to frame the buffer is not touched (R108). -/
theorem frmEnc_of_wcnt_zero {b : Block} (h : b.wcnt = 0) : frmEnc b = .ok (succeed { b with len := 0 }) := by
  have hnone : b.frameWords = [] := by rw [Block.frameWords, h]; rfl
  simp [frmEnc, hnone, encLoop, h]

end Sys2Proof.Machine

/-! PROOFS. The command `FRM.DEC` is `decode` of the first `LEN` bytes (spec/41_frame.md R104, R107). -/

namespace Sys2Proof.Machine

/-! ## The bytes `FRM.DEC` reads -/

/-- `MemRead(0, LEN)`: the first `LEN` bytes of the buffer. -/
def Block.frameBytes (b : Block) : List (BitVec 8) := (List.range b.len.toNat).map (Memory.lookup b.buf)

@[simp] theorem frameBytes_length (b : Block) : b.frameBytes.length = b.len.toNat := by simp [Block.frameBytes]

theorem frameBytes_getD (b : Block) {k : Nat} (hk : k < b.len.toNat) :
    b.frameBytes.getD k 0 = Memory.lookup b.buf k := by
  simp [Block.frameBytes, List.getD_eq_getElem?_getD, hk]

theorem frameWord_frameBytes (b : Block) {i : Nat} (hi : i < b.len.toNat / 3) :
    frameWord b.frameBytes i = bufWord b.buf i := by
  rw [frameWord, frameBytes_getD b (by omega), frameBytes_getD b (by omega), bufWord]

theorem frameGood_frameBytes (b : Block) {i : Nat} (hi : i < b.len.toNat / 3) :
    frameGood b.frameBytes i ↔ bufGood b.buf i := by
  rw [frameGood, frameWord_frameBytes b hi, frameBytes_getD b (by omega), bufGood]

/-! ## The register writes of an outcome -/

/-- The block after `FRM.DEC` when `decode` answers `r`. -/
def Block.afterDecode (b : Block) : FrameResult → Block
  | .words ws => succeed (deliverFrame ws { b with crc := (ws.map crc8).getLastD b.crc })
  | .badLength => raise .lengthError b
  | .badChecksum i => raise (.checksumError i) { b with crc := crc8 (frameWord b.frameBytes i) }

/-- `FRM.DEC` reads its frame by checked accesses and ends as `decode` of the frame does. -/
theorem frmDec_eq_afterDecode (b : Block) : frmDec b = .ok (b.afterDecode (decodeFrame b.frameBytes b.expected)) := by
  rcases frmDec_cases b with ⟨hlen, he⟩ | ⟨hlen, i, hi, hbad, hgood, he⟩ | ⟨hlen, hgood, he⟩ <;>
    rw [he] <;> rw [← frameBytes_length] at hlen
  · rw [decodeFrame_eq_iff.2 (.badLength hlen)]
    rfl
  · have hfirst : FrameOutcome b.frameBytes b.expected (.badChecksum i) :=
      .badChecksum hlen i (by rwa [frameBytes_length]) (by rwa [frameGood_frameBytes b hi])
        fun j hj => (frameGood_frameBytes b (hj.trans hi)).2 (hgood j hj)
    rw [decodeFrame_eq_iff.2 hfirst, Block.afterDecode, frameWord_frameBytes b hi]
  · have hall : ∀ i < b.frameBytes.length / 3, frameGood b.frameBytes i := by
      rw [frameBytes_length]
      exact fun i hi => (frameGood_frameBytes b hi).2 (hgood i hi)
    have hwords : (List.range (b.frameBytes.length / 3)).map (frameWord b.frameBytes) =
        (List.range (b.len.toNat / 3)).map (bufWord b.buf) := by
      rw [frameBytes_length]
      exact List.map_congr_left fun i hi => frameWord_frameBytes b (List.mem_range.1 hi)
    rw [decodeFrame_eq_iff.2 (.words hlen hall), hwords, Block.afterDecode, List.map_map]
    rfl

theorem exec_frmDec_afterDecode (s : State) :
    exec .frmDec s = .next (s.withBlk (s.blk.afterDecode (decodeFrame s.blk.frameBytes s.blk.expected))) := by
  rw [exec_frmDec, frmDec_eq_afterDecode, completesOrFaults_ok]

theorem afterDecode_buf (b : Block) (r : FrameResult) : (b.afterDecode r).buf = b.buf := by
  cases r <;> rfl

/-- The words, `WCNT`, `ERRIDX` and `ECODE` after `FRM.DEC` are those of the outcome, whatever the block was. -/
theorem afterDecode_congr (b b' : Block) (r : FrameResult) :
    (b'.afterDecode r).w0 = (b.afterDecode r).w0 ∧ (b'.afterDecode r).w1 = (b.afterDecode r).w1 ∧
    (b'.afterDecode r).w2 = (b.afterDecode r).w2 ∧ (b'.afterDecode r).wcnt = (b.afterDecode r).wcnt ∧
    (b'.afterDecode r).errIdx = (b.afterDecode r).errIdx ∧
    statusEcode (b'.afterDecode r).status = statusEcode (b.afterDecode r).status := by
  cases r with
  | words | badLength | badChecksum =>
    refine ⟨rfl, rfl, rfl, rfl, rfl, ?_⟩
    exact (statusEcode_setEcode _ _).trans (statusEcode_setEcode _ _).symm

/-- What `decode` answers has one word for each three bytes. -/
theorem length_of_decodeFrame_words {bs : List (BitVec 8)} {expect : Option Nat} {ws : List (BitVec 16)}
    (h : decodeFrame bs expect = .words ws) : bs.length = 3 * ws.length := by
  cases decodeFrame_eq_iff.1 h with
  | words hlen => rw [List.length_map, List.length_range, (groups_of_length hlen).1]

set_option maxRecDepth 20000 in
/-- Settles O40: outcome by outcome. -/
theorem frmDecIsDecodeOfTheBuffer : Obligations.FrmDecIsDecodeOfTheBuffer := by
  refine ⟨fun c => decode_ok_iff_eq c rfl rfl, by decide, by decide, fun s => ?_⟩
  intro b L bs expect result
  rw [exec_frmDec_afterDecode]
  have hresult : b.afterDecode (decodeFrame bs expect) = result := by
    unfold result
    cases hdec : decodeFrame bs expect with
    | words ws =>
      have hlen : L = 3 * ws.length := (frameBytes_length b).symm.trans (length_of_decodeFrame_words hdec)
      have hcount : L / 3 = ws.length := by omega
      have hzero : L = 0 ↔ ws.length = 0 := by omega
      simp only [Block.afterDecode, succeed, deliverFrame, setEcode_ok, getLastD_map_crc8, hcount, hzero]
    | badLength => rfl
    | badChecksum i => rfl
  exact congrArg (fun c => Host.Outcome.next (s.withBlk c)) hresult

/-- Settles O43: both errors discard. -/
theorem failedFrmDecDiscardsTheFrame : Obligations.FailedFrmDecDiscardsTheFrame := by
  intro s t h hfailed
  cases (exec_frmDec_afterDecode s).symm.trans h
  rw [withBlk_blk] at hfailed ⊢
  generalize decodeFrame s.blk.frameBytes s.blk.expected = r at hfailed ⊢
  cases r with
  | words ws => exact absurd (statusEcode_setEcode _ .ok) hfailed
  | badLength | badChecksum => exact ⟨rfl, rfl, rfl, rfl, afterDecode_buf _ _⟩

/-- Settles O44: the two frames are the same list, and the same count is expected. -/
theorem frmDecReadsOnlyItsFrame : Obligations.FrmDecReadsOnlyItsFrame := by
  intro s s' t t' hlen hctrl hbytes h h'
  cases (exec_frmDec_afterDecode s).symm.trans h
  cases (exec_frmDec_afterDecode s').symm.trans h'
  have hframe : s'.blk.frameBytes = s.blk.frameBytes := by
    rw [Block.frameBytes, hlen]
    exact List.map_congr_left fun k hk => hbytes k (List.mem_range.1 hk)
  rw [hframe, expected_congr hctrl]
  exact afterDecode_congr _ _ _

end Sys2Proof.Machine

/-! PROOFS. `FRM.DEC` after `FRM.ENC`: on the frame as it was built, and with one of its bits flipped
(spec/41_frame.md R102, R106, R108). -/

namespace Sys2Proof.Machine

/-- With the length check off or set to `n`, no other count is expected (R21). -/
theorem eq_of_mem_expected {b : Block} {n : BitVec 2}
    (h : b.ctrl.getLsbD 1 = false ∨ b.ctrl.extractLsb' 2 2 = n) : ∀ k ∈ b.expected, k = n.toNat := by
  intro k hk
  unfold Block.expected at hk
  split at hk
  case isFalse => cases hk
  case isTrue hon =>
    cases hk
    rcases h with hoff | hcount
    · exact absurd (hoff.symm.trans hon) (by decide)
    · exact congrArg BitVec.toNat hcount

/-! ## The frame in the buffer -/

/-- After `FRM.ENC` the bytes that `FRM.DEC` reads are the frame. -/
theorem frameBytes_afterEncode {b : Block} {m : Memory} (hm : HoldsFrame b m) :
    (b.afterEncode m).frameBytes = encodeFrame b.frameWords := by
  have hlen : (b.afterEncode m).frameBytes.length = (encodeFrame b.frameWords).length := by
    rw [frameBytes_length, afterEncode_len_toNat, encodeFrame_length, frameWords_length]
  refine List.ext_getElem hlen fun k hk hk' => ?_
  rw [← List.getD_eq_getElem _ 0 hk, ← List.getD_eq_getElem _ 0 hk']
  rw [frameBytes_length] at hk
  rw [frameBytes_getD _ hk]
  exact (hm k).trans (if_pos (afterEncode_len_toNat b m ▸ hk))

/-- A flipped bit of the buffer is that bit of the bytes below `LEN` flipped. -/
theorem frameBytes_flipBufBit (b : Block) (p : Nat) : (flipBufBit b p).frameBytes = flipBit b.frameBytes p := by
  have hlen : (flipBufBit b p).frameBytes.length = (flipBit b.frameBytes p).length := by
    rw [flipBit_length, frameBytes_length, frameBytes_length]
    rfl
  refine List.ext_getElem hlen fun k _ _ => ?_
  simp only [Block.frameBytes, flipBufBit, flipBit, List.getElem_modify, List.getElem_map, List.getElem_range, lookup_set]
  split
  case isTrue h => rw [h]
  case isFalse => rfl

/-! ## The two commands in a row -/

section

variable {s : State} (hexpect : s.blk.ctrl.getLsbD 1 = false ∨ s.blk.ctrl.extractLsb' 2 2 = s.blk.wcnt)

include hexpect

theorem eq_frameWords_length_of_mem_expected : ∀ k ∈ s.blk.expected, k = s.blk.frameWords.length := by
  rw [frameWords_length]
  exact eq_of_mem_expected hexpect

/-- `FRM.DEC` right after `FRM.ENC` delivers the framed words. -/
theorem exec_frmDec_afterEncode {m : Memory} (hm : HoldsFrame s.blk m) :
    exec .frmDec (s.withBlk (s.blk.afterEncode m)) =
      .next (s.withBlk ((s.blk.afterEncode m).afterDecode (.words s.blk.frameWords))) := by
  have hdecode : decodeFrame (s.blk.afterEncode m).frameBytes (s.blk.afterEncode m).expected =
      .words s.blk.frameWords := by
    rw [frameBytes_afterEncode hm]
    exact decodeFrame_encodeFrame (frameWords_length_le _) (eq_frameWords_length_of_mem_expected hexpect)
  rw [exec_frmDec_afterDecode, withBlk_blk, hdecode, withBlk_withBlk]

/-- With bit `p` of the frame flipped in between, it reports the group of the bit. -/
theorem exec_frmDec_flipBufBit_afterEncode {m : Memory} (hm : HoldsFrame s.blk m) {p : Nat}
    (hp : p < 24 * s.blk.wcnt.toNat) :
    exec .frmDec (s.withBlk (flipBufBit (s.blk.afterEncode m) p)) =
      .next (s.withBlk ((flipBufBit (s.blk.afterEncode m) p).afterDecode (.badChecksum (p / 24)))) := by
  have hdecode : decodeFrame (flipBufBit (s.blk.afterEncode m) p).frameBytes
      (flipBufBit (s.blk.afterEncode m) p).expected = .badChecksum (p / 24) := by
    rw [frameBytes_flipBufBit, frameBytes_afterEncode hm]
    exact decodeFrame_flipBit_encodeFrame (frameWords_length_le _) (eq_frameWords_length_of_mem_expected hexpect)
      (by rwa [frameWords_length])
  rw [exec_frmDec_afterDecode, withBlk_blk, hdecode, withBlk_withBlk]

end

/-- The framed words by index: word `i` when `WCNT` is above `i`, and nothing from there on. -/
theorem frameWords_getD (b : Block) :
    b.frameWords.getD 0 0 = (if 1 ≤ b.wcnt.toNat then b.w0 else 0) ∧
    b.frameWords.getD 1 0 = (if 2 ≤ b.wcnt.toNat then b.w1 else 0) ∧
    b.frameWords.getD 2 0 = (if 3 ≤ b.wcnt.toNat then b.w2 else 0) := by
  rw [Block.frameWords]
  rcases wordIdx_cases b.wcnt with h | h | h | h <;> rw [h] <;> exact ⟨rfl, rfl, rfl⟩

/-- Settles O46: the frame that `FRM.ENC` builds decodes to its words. -/
theorem decodeAfterEncodeRestoresTheWords : Obligations.DecodeAfterEncodeRestoresTheWords := by
  intro s hexpect
  obtain ⟨m, henc, hm⟩ := exec_frmEnc_afterEncode s
  obtain ⟨hw0, hw1, hw2⟩ := frameWords_getD s.blk
  have hcount : BitVec.ofNat 2 s.blk.frameWords.length = s.blk.wcnt := by
    rw [frameWords_length, BitVec.ofNat_toNat, BitVec.setWidth_eq]
  exact ⟨_, _, henc, exec_frmDec_afterEncode hexpect hm, hw0, hw1, hw2, hcount, rfl, statusEcode_setEcode _ .ok⟩

/-- Settles O47: the flipped bit is one of the bytes that `FRM.DEC` reads. -/
theorem corruptedFrameIsRejected : Obligations.CorruptedFrameIsRejected := by
  intro s p hexpect hp
  have hn : s.blk.wcnt.toNat < 4 := s.blk.wcnt.isLt
  have hgroup : (BitVec.ofNat 2 (p / 24)).toNat = p / 24 := Nat.mod_eq_of_lt (by omega)
  obtain ⟨m, henc, hm⟩ := exec_frmEnc_afterEncode s
  exact ⟨_, _, henc, exec_frmDec_flipBufBit_afterEncode hexpect hm hp, statusEcode_setEcode _ .checksum, hgroup,
    rfl, rfl, rfl, rfl⟩

/-! ## Frames of no words -/

/-- An empty frame decodes to no words (R108). -/
theorem decodeFrame_nil {expect : Option Nat} (hexpect : ∀ k ∈ expect, k = 0) : decodeFrame [] expect = .words [] :=
  decodeFrame_encodeFrame (ws := []) (Nat.zero_le 3) hexpect

/-- Settles O48: nothing to frame, and nothing to read. -/
theorem zeroWordFramesSucceed : Obligations.ZeroWordFramesSucceed := by
  refine ⟨fun s hwcnt => ?_, fun s hlen hexpect => ?_⟩
  · rw [exec_frmEnc, frmEnc_of_wcnt_zero hwcnt, completesOrFaults_ok, succeed, setEcode_ok]
    rfl
  · have hnone : s.blk.frameBytes = [] := List.eq_nil_of_length_eq_zero (by rw [frameBytes_length, hlen]; rfl)
    rw [exec_frmDec_afterDecode, hnone, decodeFrame_nil (eq_of_mem_expected hexpect), Block.afterDecode, succeed,
      setEcode_ok]
    rfl

end Sys2Proof.Machine

/-! PROOFS. The linear transform: its value, that it does not decrease, and the ranges of the three channels
(spec/42_convert.md R121, R122). -/

namespace Sys2Proof.Machine

/-! ## One triple of constants -/

/-- The quotient of naturals is the floor of the rational quotient. -/
theorem linConv_eq_add_floor (c : Conv) (raw : Nat) :
    linConv c raw = c.off + ⌊((raw : ℚ) * (c.mul : ℚ)) / (c.div : ℚ)⌋ := by
  rw [← Nat.cast_mul, Rat.floor_natCast_div_natCast]
  rfl

theorem linConv_zero (c : Conv) : linConv c 0 = c.off := by simp [linConv]

theorem linConv_mono (c : Conv) : Monotone (linConv c) := by
  intro raw raw' h
  have hquot : raw * c.mul / c.div ≤ raw' * c.mul / c.div := Nat.div_le_div_right (Nat.mul_le_mul_right c.mul h)
  exact Int.add_le_add_left (Int.ofNat_le.2 hquot) c.off

theorem off_le_linConv (c : Conv) (raw : Nat) : c.off ≤ linConv c raw :=
  linConv_zero c ▸ linConv_mono c (Nat.zero_le raw)

section

variable {c : Conv} {raw : Nat}

theorem linConv_le_greatest (hraw : raw ≤ 65535) : linConv c raw ≤ c.greatest := linConv_mono c hraw

/-- The product of a raw word and a multiplier fits 48 bits. -/
theorem mul_lt_of_inRange (hc : c.inRange) (hraw : raw ≤ 65535) : raw * c.mul < 2 ^ 48 := by
  obtain ⟨hmul, -⟩ := hc
  have hle : raw * c.mul ≤ 65535 * c.mul := Nat.mul_le_mul_right c.mul hraw
  omega

/-- R8 for a signed channel bounds the offset below and the greatest result above. -/
theorem linConv_mem_signed (hc : c.fitsSigned) (hraw : raw ≤ 65535) :
    -2 ^ 31 ≤ linConv c raw ∧ linConv c raw < 2 ^ 31 := by
  obtain ⟨⟨-, -, -, hoff, -⟩, hgreatest⟩ := hc
  exact ⟨hoff.trans (off_le_linConv c raw), (linConv_le_greatest hraw).trans_lt hgreatest⟩

/-- R8 for an unsigned channel. -/
theorem linConv_mem_unsigned (hc : c.fitsUnsigned) (hraw : raw ≤ 65535) :
    0 ≤ linConv c raw ∧ linConv c raw < 2 ^ 32 := by
  obtain ⟨-, hoff, hgreatest⟩ := hc
  exact ⟨hoff.trans (off_le_linConv c raw), (linConv_le_greatest hraw).trans_lt hgreatest⟩

end

/-! ## The result registers -/

theorem toInt_resultBits {n : Int} (h : -2 ^ 31 ≤ n ∧ n < 2 ^ 31) : (resultBits n).toInt = n :=
  BitVec.toInt_ofInt_eq_self (by decide) h.1 h.2

theorem toNat_resultBits {n : Int} (h : 0 ≤ n ∧ n < 2 ^ 32) : ((resultBits n).toNat : Int) = n := by
  rw [resultBits, BitVec.toNat_ofInt]
  omega

/-! ## The machine's constants -/

/-- R8 for a family of a legal parameter set. -/
theorem profile_ok (v : ValidParams) (f : Family) : (v.params.profile f).ok :=
  (Params.ok_iff_forall_profile v.params).1 v.ok f

/-- Settles O50: the multiplier of a legal set is below `2^32`, and the quotient is the floor. -/
theorem linIsOffsetPlusExactFloor : Obligations.LinIsOffsetPlusExactFloor := by
  intro v f ch raw hraw
  obtain ⟨hrange, -⟩ := (Profile.ok_iff _).1 (profile_ok v f)
  exact ⟨mul_lt_of_inRange (hrange ch) hraw, linConv_eq_add_floor _ raw⟩

/-- Settles O51: the range of each channel, and a register holds what lies in its range. -/
theorem converterNeverOverflows : Obligations.ConverterNeverOverflows := by
  intro v f raw hraw
  obtain ⟨hco2, htmp, hhum⟩ := profile_ok v f
  have rtmp := linConv_mem_signed htmp hraw
  have rco2 := linConv_mem_unsigned hco2 hraw
  have rhum := linConv_mem_unsigned hhum hraw
  exact ⟨rtmp, rco2, rhum, toInt_resultBits rtmp, toNat_resultBits rco2, toNat_resultBits rhum,
    fun ch _ hle => linConv_mono _ hle⟩

end Sys2Proof.Machine

/-! PROOFS. The reference profile (spec/42_convert.md R123, R131) and its corner values (R127 to R129, R132, R133). -/

namespace Sys2Proof.Machine

/-- `CO2` has the constants of the identity in both families (R123). -/
theorem referenceParams_co2 (tmp0 hum0 : Conv) (mask0 : BitVec 16) (f : Family) :
    ((referenceParams tmp0 hum0 mask0).profile f).co2 = ⟨1, 1, 0⟩ := by
  cases f <;> rfl

/-- Settles O59: each constant is read off the profile. -/
theorem referenceProfileConstants : Obligations.ReferenceProfileConstants := fun tmp0 hum0 mask0 =>
  ⟨referenceParams_co2 tmp0 hum0 mask0, rfl, rfl, rfl, rfl, rfl, rfl⟩

/-- Multiplier 1, divisor 1 and offset 0 make the identity. -/
theorem linConv_identity (raw : Nat) : linConv ⟨1, 1, 0⟩ raw = raw := by simp [linConv]

theorem lin_referenceParams_co2 (tmp0 hum0 : Conv) (mask0 : BitVec 16) (f : Family) (raw : Nat) :
    lin (referenceParams tmp0 hum0 mask0) f .co2 raw = raw := by
  rw [lin, Profile.conv, referenceParams_co2, linConv_identity]

/-- The example of R127 and R133. -/
theorem linConv_profileRef_co2 : linConv profileRef.co2 0x01F4 = 500 := linConv_identity 0x01F4

/-- The corner values of R128; the last is also the example of R133. -/
theorem linConv_profileRef_tmp :
    BitVec.ofInt 32 (linConv profileRef.tmp 0x0000) = 0xFFFF5038 ∧ linConv profileRef.tmp 0x8000 = 42501 ∧
    linConv profileRef.tmp 16852 = 0 ∧ linConv profileRef.tmp 16851 = -3 ∧ linConv profileRef.tmp 16853 = 3 ∧
    linConv profileRef.tmp 0x6667 = 25002 := by decide

/-- The corner values of R129; the last is also the example of R133. -/
theorem linConv_profileRef_hum :
    linConv profileRef.hum 0x0000 = 0 ∧ linConv profileRef.hum 0xFFFF = 100000 ∧
    linConv profileRef.hum 0x8000 = 50000 ∧ linConv profileRef.hum 0x5EB9 = 37001 := by decide

end Sys2Proof.Machine

/-! PROOFS. The converter's commands (spec/42_convert.md R126 to R129, R132, R133, spec/70_reset_and_hazards.md R176). -/

namespace Sys2Proof.Machine

/-! ## One conversion -/

/-- Settles O52: format R on the named word, and the identity of the reference profile. -/
theorem cnvCo2WritesCo2 : Obligations.CnvCo2WritesCo2 := by
  refine ⟨fun c => decode_ok_iff_eq_add c (f := .cnvCo2) (fun _ => rfl) fun _ => rfl, fun s r hr => ?_,
    fun tmp0 hum0 mask0 f raw _ => lin_referenceParams_co2 tmp0 hum0 mask0 f raw, linConv_profileRef_co2⟩
  rw [exec_cnvCo2, onWord_of_ne_three hr, succeed, setEcode_ok]
  rfl

/-- Settles O53: format R on the named word, and the rule's corner values. -/
theorem cnvTmpWritesTemp : Obligations.CnvTmpWritesTemp := by
  refine ⟨fun c => decode_ok_iff_eq_add c (f := .cnvTmp) (fun _ => rfl) fun _ => rfl, fun s r hr => ?_,
    linConv_profileRef_tmp⟩
  rw [exec_cnvTmp, onWord_of_ne_three hr, succeed, setEcode_ok]
  rfl

/-- Settles O54: format R on the named word, and the rule's corner values. -/
theorem cnvHumWritesHum : Obligations.CnvHumWritesHum := by
  refine ⟨fun c => decode_ok_iff_eq_add c (f := .cnvHum) (fun _ => rfl) fun _ => rfl, fun s r hr => ?_,
    linConv_profileRef_hum⟩
  rw [exec_cnvHum, onWord_of_ne_three hr, succeed, setEcode_ok]
  rfl

/-- `READY` written and `ECODE` cleared, as one mask. -/
theorem setEcode_ok_setReady (st : BitVec 8) (v : Bool) :
    setEcode (setReady st v) .ok = (st &&& 0xD8) ||| (if v then 0x20 else 0x00) := by
  rw [setEcode_ok, setReady, BitVec.and_or_distrib_right, BitVec.and_assoc]
  cases v <;> rfl

/-- Settles O55: format R on the named word, with the masked word's test in `READY`, and the rule's example words. -/
theorem cnvRdyWritesReady : Obligations.CnvRdyWritesReady := by
  refine ⟨fun c => decode_ok_iff_eq_add c (f := .cnvRdy) (fun _ => rfl) fun _ => rfl, fun s r hr => ?_, by decide,
    by decide⟩
  rw [exec_cnvRdy, onWord_of_ne_three hr, succeed, convRdy_status, setEcode_ok_setReady]
  simp only [ready, bne_iff_ne]
  rfl

/-! ## The three conversions of a measurement -/

/-- The bits of `STATUS` outside `ECODE` are out of the reach of its writes. -/
theorem setEcode_and_mask (st : BitVec 8) (e : ErrorCode) : setEcode st e &&& 0xF8 = st &&& 0xF8 := by
  cases e <;> revert st <;> decide

/-- A later write of `ECODE` stands alone. -/
theorem setEcode_setEcode (st : BitVec 8) (e e' : ErrorCode) : setEcode (setEcode st e) e' = setEcode st e' :=
  congrArg (· ||| e'.bits.setWidth 8) (setEcode_and_mask st e)

/-- The orders of three things. -/
theorem perm_three {α : Type} {l : List α} {a b c : α} (h : l.Perm [a, b, c]) :
    l = [a, b, c] ∨ l = [b, a, c] ∨ l = [b, c, a] ∨ l = [a, c, b] ∨ l = [c, a, b] ∨ l = [c, b, a] := by
  have hmem := List.mem_permutations'.2 h
  simpa [List.permutations'] using hmem

/-- In every order the three single conversions leave the three results of `CNV.ALL`; each of them clears `ECODE`. -/
theorem runCommands_conversions {is : List Instr} (h : is.Perm [.cnvCo2 0, .cnvTmp 1, .cnvHum 2]) (s : State) :
    runCommands is s = some (s.withBlk (succeed (convAll Config.params.params s.blk))) := by
  have hrun : runCommands is s = some (s.withBlk { convAll Config.params.params s.blk with
      status := setEcode (setEcode (setEcode s.blk.status .ok) .ok) .ok }) := by
    rcases perm_three h with rfl | rfl | rfl | rfl | rfl | rfl <;> rfl
  rw [hrun, setEcode_setEcode, setEcode_setEcode]
  rfl

/-- Settles O56: the block of `convAll`, the single conversions in their orders, and the example values. -/
theorem cnvAllConvertsTheThreeWords : Obligations.CnvAllConvertsTheThreeWords := by
  obtain ⟨-, -, -, -, -, htmp⟩ := linConv_profileRef_tmp
  obtain ⟨-, -, -, hhum⟩ := linConv_profileRef_hum
  refine ⟨fun c => decode_ok_iff_eq c rfl rfl, fun s => ?_,
    fun s is hperm => ⟨_, exec_cnvAll s, runCommands_conversions hperm s⟩, linConv_profileRef_co2, htmp, hhum⟩
  rw [exec_cnvAll, succeed, setEcode_ok]
  rfl

/-! ## Converting what a failed decode leaves -/

theorem lin_zero (p : Params) (f : Family) (ch : Channel) : lin p f ch 0 = ((p.profile f).conv ch).off := linConv_zero _

/-- Words that are zero convert to the family's offsets. -/
theorem convAll_of_words_zero (p : Params) {b : Block} (h0 : b.w0 = 0) (h1 : b.w1 = 0) (h2 : b.w2 = 0) :
    (convAll p b).co2 = resultBits (p.profile b.family).co2.off ∧
    (convAll p b).temp = resultBits (p.profile b.family).tmp.off ∧
    (convAll p b).hum = resultBits (p.profile b.family).hum.off := by
  rw [convAll_co2, convAll_temp, convAll_hum, h0, h1, h2]
  exact ⟨congrArg resultBits (lin_zero p _ .co2), congrArg resultBits (lin_zero p _ .tmp),
    congrArg resultBits (lin_zero p _ .hum)⟩

/-- Settles O57: a failed `FRM.DEC` leaves zero words and keeps the family, and `CNV.ALL` clears `ECODE`. -/
theorem convertingAfterAFailedDecodeHidesTheError : Obligations.ConvertingAfterAFailedDecodeHidesTheError := by
  intro s t hdec hfailed
  obtain ⟨h0, h1, h2, -, -⟩ := failedFrmDecDiscardsTheFrame s t hdec hfailed
  have hfamily : t.blk.family = s.blk.family := congrArg ctrlFam (exec_ctrl hdec)
  have hresults := convAll_of_words_zero Config.params.params h0 h1 h2
  rw [hfamily] at hresults
  exact ⟨_, exec_cnvAll t, statusEcode_setEcode _ .ok, hresults⟩

end Sys2Proof.Machine

/-! PROOFS. The control commands, and what a command and an access depend on (spec/43_control.md R140, R141, R145, R146). -/

namespace Sys2Proof.Machine

/-- Settles O58: `NOP` has the one byte `0x00`, and its meaning is the state it starts from. -/
theorem nopChangesNothing : Obligations.NopChangesNothing :=
  ⟨fun c => decode_ok_iff_eq c rfl rfl, exec_nop⟩

/-- Settles O13: `CLR` has the one byte `0xF0` and leaves the block of the reset state, which `resetValuesOfTheBlock`
describes. -/
theorem clrLeavesTheResetState : Obligations.ClrLeavesTheResetState :=
  ⟨fun c => decode_ok_iff_eq c rfl rfl, resetValuesOfTheBlock, exec_clr⟩

/-- Settles O17: each of the ways a command can end is a next state with another block. -/
theorem everyCommandCompletes : Obligations.EveryCommandCompletes := fun i s =>
  let ⟨b, hexec, _⟩ := exec_result i s
  ⟨b, hexec⟩

section

variable {s s' t t' : State}

/-- From equal blocks a command leaves equal blocks (R146). -/
theorem exec_blk_congr {i : Instr} (hblk : s.blk = s'.blk) (h : exec i s = .next t) (h' : exec i s' = .next t') :
    t.blk = t'.blk := by
  obtain ⟨c, hc⟩ := exec_uniform i s.blk
  have hs : exec i s = .next ⟨c, s.pending, s.returned⟩ := hc s.pending s.returned
  have hs' : exec i s' = .next ⟨c, s'.pending, s'.returned⟩ := by
    rw [hblk] at hc
    exact hc s'.pending s'.returned
  cases hs.symm.trans h
  cases hs'.symm.trans h'
  rfl

/-- From equal blocks a byte written to `CMD` leaves equal blocks, legal or not. -/
theorem command_blk_congr {c : BitVec 8} (hblk : s.blk = s'.blk) (h : command c s = .next t)
    (h' : command c s' = .next t') : t.blk = t'.blk := by
  cases hd : decode c with
  | ok i =>
    rw [command_legal hd] at h h'
    exact exec_blk_congr hblk h h'
  | error e =>
    cases (command_illegal hd s).symm.trans h
    cases (command_illegal hd s').symm.trans h'
    exact congrArg (raise .illegalCommand) hblk

/-- From equal blocks an access leaves equal blocks. -/
theorem serve_blk_congr {a : HostAction} (hblk : s.blk = s'.blk) (h : serve a s = .next t)
    (h' : serve a s' = .next t') : t.blk = t'.blk := by
  cases a with
  | read n =>
    cases (serve_read n s).symm.trans h
    cases (serve_read n s').symm.trans h'
    exact hblk
  | reset =>
    cases (serve_reset s).symm.trans h
    cases (serve_reset s').symm.trans h'
    rfl
  | write n v =>
    by_cases hn : n = cmdReg
    · subst hn
      rw [serve_command] at h h'
      exact command_blk_congr hblk h h'
    · cases (serve_write hn v s).symm.trans h
      cases (serve_write hn v s').symm.trans h'
      exact congrArg (writeReg · n v) hblk

end

/-- Settles O10: both states are idle, or both serve the same access on the same block. -/
theorem stepReadsBlockAndAccessOnly : Obligations.StepReadsBlockAndAccessOnly := by
  intro s s' t t' hblk hhead h h'
  cases hp : s.pending with
  | nil =>
    rw [hp, List.head?_nil, eq_comm, List.head?_eq_none_iff] at hhead
    cases (step_idle hp).symm.trans h
    cases (step_idle hhead).symm.trans h'
    exact hblk
  | cons a rest =>
    rw [hp, List.head?_cons, eq_comm, List.head?_eq_some_iff] at hhead
    obtain ⟨rest', hp'⟩ := hhead
    rw [step_serve hp] at h
    rw [step_serve hp'] at h'
    exact serve_blk_congr (s := { s with pending := rest }) (s' := { s' with pending := rest' }) hblk h h'

end Sys2Proof.Machine

/-! PROOFS. What each error writes, and when `FRM.DEC` raises which (spec/60_exceptions.md R151, R152, R154). -/

namespace Sys2Proof.Machine

/-! ## The register writes of `raise` -/

/-- Settles O25: `raise` error by error; the code's three bits are the low ones of `STATUS`. -/
theorem raiseWritesExactlyTheListedRegisters : Obligations.RaiseWritesExactlyTheListedRegisters := fun b =>
  ⟨raise_illegalCommand b, raise_lengthError b, fun i => raise_checksumError i b⟩

/-! ## The conditions of the two errors, on the registers -/

/-- A count is expected when `CTRL.EXPEN` is set, and then it is `CTRL.EXPW` (R21). -/
theorem expected_eq_some_iff {b : Block} {n : Nat} :
    b.expected = some n ↔ b.ctrl.getLsbD 1 = true ∧ n = (b.ctrl.extractLsb' 2 2).toNat := by
  rw [Block.expected, Option.ite_none_right_eq_some, Option.some.injEq, eq_comm (b := n)]
  rfl

/-- The test of R105 on `LEN` and the expected count reads as R152 writes it. -/
theorem badFrameLength_iff_lengthBad (b : Block) : badFrameLength b.len.toNat b.expected = true ↔ lengthBad b := by
  simp only [badFrameLength_iff, lengthBad, expected_eq_some_iff, and_assoc, exists_and_left, exists_eq_left]

theorem badFrameLength_eq_false_iff (b : Block) : badFrameLength b.len.toNat b.expected = false ↔ ¬lengthBad b := by
  rw [← badFrameLength_iff_lengthBad, Bool.not_eq_true]

/-- A group of the bytes that `FRM.DEC` reads is good when the group of the buffer carries its checksum. -/
theorem frameGood_iff_groupMatches (b : Block) {i : Nat} (hi : i < b.len.toNat / 3) :
    frameGood b.frameBytes i ↔ groupMatches b i := frameGood_frameBytes b hi

theorem decodeFrame_frameBytes_badLength_iff (b : Block) :
    decodeFrame b.frameBytes b.expected = .badLength ↔ lengthBad b := by
  rw [decodeFrame_eq_iff, ← badFrameLength_iff_lengthBad, ← frameBytes_length]
  exact ⟨fun | .badLength hlen => hlen, .badLength⟩

theorem decodeFrame_frameBytes_badChecksum {b : Block} {i : Nat} (hlen : ¬lengthBad b) (hi : i < b.len.toNat / 3)
    (hbad : ¬groupMatches b i) (hgood : ∀ j < i, groupMatches b j) :
    decodeFrame b.frameBytes b.expected = .badChecksum i :=
  decodeFrame_eq_iff.2 <| .badChecksum
    (by rwa [frameBytes_length, badFrameLength_eq_false_iff])
    i
    (by rwa [frameBytes_length])
    (by rwa [frameGood_iff_groupMatches b hi])
    fun j hj => (frameGood_iff_groupMatches b (hj.trans hi)).2 (hgood j hj)

/-! ## The two errors of `FRM.DEC` -/

/-- Of the three outcomes only a bad length leaves `ECODE` 2. -/
theorem eq_badLength_of_statusEcode_afterDecode {b : Block} {r : FrameResult}
    (h : statusEcode (b.afterDecode r).status = 2) : r = .badLength := by
  cases r with
  | words => exact absurd ((statusEcode_setEcode _ .ok).symm.trans h) (by decide)
  | badLength => rfl
  | badChecksum => exact absurd ((statusEcode_setEcode _ .checksum).symm.trans h) (by decide)

/-- Settles O41: a bad length raises `LengthError`, and the other two outcomes leave `ECODE` 0 and 1. -/
theorem frmDecLengthError : Obligations.FrmDecLengthError := by
  refine fun s => ⟨fun hbad => ?_, fun t h hcode => ?_⟩
  · obtain ⟨-, hraise, -⟩ := raiseWritesExactlyTheListedRegisters s.blk
    rw [exec_frmDec_afterDecode, (decodeFrame_frameBytes_badLength_iff s.blk).2 hbad, Block.afterDecode, hraise]
    rfl
  · cases (exec_frmDec_afterDecode s).symm.trans h
    exact (decodeFrame_frameBytes_badLength_iff s.blk).1 (eq_badLength_of_statusEcode_afterDecode hcode)

/-- Settles O42: `decode` stops at group `i`, and `FRM.DEC` has computed the checksum of its word by then. -/
theorem frmDecChecksumError : Obligations.FrmDecChecksumError := by
  intro s i hlen hi hbad hgood
  have hgroups : i ≤ 2 := by
    have hnine : ¬9 < s.blk.len.toNat := fun h => hlen (.inl h)
    omega
  have hword : frameWord s.blk.frameBytes i = groupWord s.blk i := frameWord_frameBytes s.blk hi
  obtain ⟨-, -, hraise⟩ := raiseWritesExactlyTheListedRegisters { s.blk with crc := crc8 (groupWord s.blk i) }
  rw [exec_frmDec_afterDecode, decodeFrame_frameBytes_badChecksum hlen hi hbad hgood, Block.afterDecode, hword, hraise]
  exact ⟨hgroups, rfl⟩

end Sys2Proof.Machine

/-! PROOFS. What the converter and the checksum verification left behind stays through every other access
(spec/70_reset_and_hazards.md R179). -/

namespace Sys2Proof.Machine

/-! ## The results of a block -/

/-- The result registers and the result flags (R179): `CO2`, `TEMP`, `HUM`, `MATCH`, `READY`. -/
def Block.results (b : Block) : BitVec 32 × BitVec 32 × BitVec 32 × Bool × Bool :=
  (b.co2, b.temp, b.hum, statusMatch b.status, statusReady b.status)

theorem results_eq_iff {b b' : Block} :
    b'.results = b.results ↔ b'.co2 = b.co2 ∧ b'.temp = b.temp ∧ b'.hum = b.hum ∧
      statusMatch b'.status = statusMatch b.status ∧ statusReady b'.status = statusReady b.status := by
  simp only [Block.results, Prod.mk.injEq]

@[simp] theorem results_writeReg (b : Block) (n : BitVec 8) (v : Nat) : (writeReg b n v).results = b.results := by
  simp [Block.results]

@[simp] theorem results_raise (e : CommandError) (b : Block) : (raise e b).results = b.results := by
  simp [Block.results]

/-! ## One command, one step -/

theorem ne_of_keepsResults {i j : Instr} (hi : keepsResults i) (hj : ¬keepsResults j) : i ≠ j := fun h => hj (h ▸ hi)

/-- A command that is none of the results' writers keeps them, however it ends. -/
theorem ExecResult.results_eq {b b' : Block} {i : Instr} (hr : ExecResult b i b') (hi : keepsResults i) :
    b'.results = b.results := by
  have hclr : i ≠ .clr := ne_of_keepsResults hi id
  have hall : i ≠ .cnvAll := ne_of_keepsResults hi id
  exact results_eq_iff.2 ⟨hr.co2_eq (fun _ => ne_of_keepsResults hi id) hall hclr,
    hr.temp_eq (fun _ => ne_of_keepsResults hi id) hall hclr,
    hr.hum_eq (fun _ => ne_of_keepsResults hi id) hall hclr,
    hr.statusMatch_eq (fun _ => ne_of_keepsResults hi id) hclr,
    hr.statusReady_eq (fun _ => ne_of_keepsResults hi id) hclr⟩

/-- An access that is no reset and whose command, if it is one, writes no result (R179). -/
def HostAction.SparesResults (a : HostAction) : Prop :=
  a ≠ .reset ∧ ∀ v i, a = .write cmdReg v → decode (commandByte v) = .ok i → keepsResults i

theorem step_results {s t : State} (hs : ∀ a ∈ s.pending, a.SparesResults) (h : step s = .next t) :
    t.blk.results = s.blk.results := by
  rcases step_cases s with ⟨-, e⟩ | ⟨n, rest, -, e⟩ | ⟨n, v, rest, -, -, e⟩ | ⟨v, rest, i, hp, hd, e⟩ |
    ⟨v, rest, err, -, -, e⟩ | ⟨rest, hp, -⟩
  · cases e.symm.trans h
    rfl
  · cases e.symm.trans h
    rfl
  · cases e.symm.trans h
    exact results_writeReg s.blk n v
  · obtain ⟨-, hr⟩ := exec_inversion (e.symm.trans h)
    obtain ⟨-, hcommand⟩ := hs (.write cmdReg v) (by simp [hp])
    exact hr.results_eq (hcommand v i rfl hd)
  · cases e.symm.trans h
    exact results_raise .illegalCommand s.blk
  · obtain ⟨hreset, -⟩ := hs .reset (by simp [hp])
    exact absurd rfl hreset

/-- A step takes the access it serves off the pending ones and leaves the others (R47, R145). -/
theorem step_pending {s t : State} (h : step s = .next t) : t.pending = s.pending.tail := by
  cases hp : s.pending with
  | nil =>
    cases (step_idle hp).symm.trans h
    exact hp
  | cons a rest =>
    obtain ⟨b, vs, hserve⟩ := serve_uniform a s
    cases ((step_serve hp).trans (hserve rest)).symm.trans h
    rfl

/-! ## Runs -/

theorem run_results {s t : State} {k : Nat} (hs : ∀ a ∈ s.pending, a.SparesResults)
    (h : Host.Core.run Sys2Proof.core k s = .next t) : t.blk.results = s.blk.results := by
  induction k generalizing s with
  | zero =>
    cases (run_zero s).symm.trans h
    rfl
  | succ k ih =>
    obtain ⟨u, hu⟩ := step_total s
    have hrest : ∀ a ∈ u.pending, a.SparesResults := fun a ha =>
      hs a (List.mem_of_mem_tail (step_pending hu ▸ ha))
    calc t.blk.results
      _ = u.blk.results := ih hrest ((run_succ hu k).symm.trans h)
      _ = s.blk.results := step_results hs hu

/-- Settles O21, by induction on the number of steps: no step writes a result, and the accesses still to come are among
those of the premise. -/
theorem resultsSurviveOtherAccesses : Obligations.ResultsSurviveOtherAccesses := fun _ _ _ hs h =>
  results_eq_iff.1 (run_results hs h)

end Sys2Proof.Machine

/-! PROOFS. Steps that run no command, and commands that name no word register (spec/10_state.md R12,
spec/30_encoding.md R62, spec/70_reset_and_hazards.md R171, R182). -/

namespace Sys2Proof.Machine

/-- Settles O6: the idle step, and the reset action served first. -/
theorem idleAndResetSteps : Obligations.IdleAndResetSteps :=
  ⟨fun _ hpending => step_idle hpending, fun _ _ hpending => (step_serve hpending).trans (serve_reset _)⟩

/-- Field 3 names no word register, so a format-R command with it raises `IllegalCommand` (R12, R62). -/
theorem onWord_of_not_wellFormed {r : WordIdx} (hr : WordIdx.wellFormed r = false) (s : State)
    (f : BitVec 16 → Block → Block) : onWord r s f = .next (s.withBlk (raise .illegalCommand s.blk)) := by
  obtain rfl : r = 3 := bne_eq_false_iff_eq.1 hr
  rfl

/-- Only format-R commands can be ill-formed, and those raise `IllegalCommand`. -/
theorem exec_of_not_wellFormed {i : Instr} (hwf : i.wellFormed = false) (s : State) :
    exec i s = .next (s.withBlk (raise .illegalCommand s.blk)) := by
  cases i with
  | nop | frmEnc | frmDec | cnvAll | clr => exact absurd hwf (by decide)
  | crcCalc r => exact (exec_crcCalc r s).trans (onWord_of_not_wellFormed hwf s _)
  | crcVrfy r => exact (exec_crcVrfy r s).trans (onWord_of_not_wellFormed hwf s _)
  | cnvCo2 r => exact (exec_cnvCo2 r s).trans (onWord_of_not_wellFormed hwf s _)
  | cnvTmp r => exact (exec_cnvTmp r s).trans (onWord_of_not_wellFormed hwf s _)
  | cnvHum r => exact (exec_cnvHum r s).trans (onWord_of_not_wellFormed hwf s _)
  | cnvRdy r => exact (exec_cnvRdy r s).trans (onWord_of_not_wellFormed hwf s _)

/-- Settles O26: an ill-formed command raises `IllegalCommand`, which writes 3 to `ECODE` and nothing else. -/
theorem fieldThreeIsIllegal : Obligations.FieldThreeIsIllegal := by
  intro i s hwf
  rw [exec_of_not_wellFormed hwf, raise_illegalCommand]
  rfl

end Sys2Proof.Machine
